-- ==== Sys2Proof/Word.lean ====
section
/-! DEFINITION. The value types of the BTU (00_scope.md R9, 30_encoding.md R68): bits, bytes, text,
the nonempty cyclic pattern, the chain commands a block carries, the three mask operations and the
seven error kinds. -/

namespace Sys2Proof

/-- A byte of the input or output, and one program-text character (R9, R49: one character per byte). -/
abbrev Byte := BitVec 8

/-- `Bit` of R9. -/
abbrev Bit := Bool

/-- `Bits` of R9: a finite ordered sequence of bits, index 0 first. -/
abbrev Bits := List Bool

/-- `Bytes` of R9. -/
abbrev Bytes := List Byte

/-- `Text` of R9, one character per byte (DEDUCED from 92 D2, log 13). -/
abbrev Text := List Byte

/-- `Pattern` of R68: a nonempty sequence of bits, its first bit and the bits after it (log 20). -/
structure Pattern where
  first : Bit
  rest  : Bits
  deriving DecidableEq, Repr

/-- The bits of a pattern in index order. -/
def Pattern.bits (p : Pattern) : Bits := p.first :: p.rest

/-- The operation of a logical command (R68 `Op`). -/
inductive LogicOp where
  | xor
  | and
  | or
  deriving DecidableEq, Repr

/-- A command of a block's chain (R68 `ChainCmd`). -/
inductive ChainCmd where
  | invert
  | reverseBits
  | byteSwap
  | logical (op : LogicOp) (p : Pattern)
  deriving DecidableEq, Repr

/-- The seven error kinds of 60_exceptions.md R122. -/
inductive ErrorKind where
  | rangeError
  | invalidArgument
  | invalidPattern
  | mismatchedBrackets
  | missingBlockCount
  | disallowedInBlock
  | unknownCommand
  deriving DecidableEq, Repr

/-- `ceil8(k)` of R9. -/
def ceil8 (k : Nat) : Nat := (k + 7) / 8

end Sys2Proof
end

