-- ==== Sys2Proof/Syntax.lean ====
section
/-! DEFINITION. The commands of the BTU, one constructor per row of spec/opcode_table.json
(30_encoding.md R62). A block carries its chain as `ChainCmd`s (R68); the six chain rows are also
constructors of their own, `ChainCmd.toInstr` says which. -/

namespace Sys2Proof

/-- The sixteen commands of R62: ten of the top level, six of a block's chain. -/
inductive Instr where
  /-- `t` Take(n), R97 -/
  | take (n : Nat)
  /-- `s` Skip(n), R98 -/
  | skip (n : Nat)
  /-- `i` Insert(lit), R99 -/
  | insert (lit : Bits)
  /-- `n` Invert(n), R100 -/
  | invert (n : Nat)
  /-- `v` ReverseBits(n), R102 -/
  | reverseBits (n : Nat)
  /-- `b` ByteSwap(n), R104 -/
  | byteSwap (n : Nat)
  /-- `x` Logical(Xor, n, P), R107 -/
  | logicXor (n : Nat) (p : Pattern)
  /-- `a` Logical(And, n, P), R108 -/
  | logicAnd (n : Nat) (p : Pattern)
  /-- `o` Logical(Or, n, P), R109 -/
  | logicOr (n : Nat) (p : Pattern)
  /-- `[` Block(chain, n), R111 -/
  | block (chain : List ChainCmd) (n : Nat)
  /-- chain `n` CInvert, R113 -/
  | chainInvert
  /-- chain `v` CReverseBits, R114 -/
  | chainReverseBits
  /-- chain `b` CByteSwap, R115 -/
  | chainByteSwap
  /-- chain `x` CLogical(Xor, P), R116 -/
  | chainXor (p : Pattern)
  /-- chain `a` CLogical(And, P), R117 -/
  | chainAnd (p : Pattern)
  /-- chain `o` CLogical(Or, P), R118 -/
  | chainOr (p : Pattern)
  deriving DecidableEq, Repr

/-- The opcode-table row a chain command is (R62). -/
def ChainCmd.toInstr : ChainCmd → Instr
  | .invert => .chainInvert
  | .reverseBits => .chainReverseBits
  | .byteSwap => .chainByteSwap
  | .logical .xor p => .chainXor p
  | .logical .and p => .chainAnd p
  | .logical .or p => .chainOr p

/-- Whether a command is legal at top level (60_exceptions.md R135: the ten rows of context `top`). -/
def Instr.topLevel : Instr → Bool
  | .take _ | .skip _ | .insert _ | .invert _ | .reverseBits _ | .byteSwap _ => true
  | .logicXor _ _ | .logicAnd _ _ | .logicOr _ _ | .block _ _ => true
  | .chainInvert | .chainReverseBits | .chainByteSwap => false
  | .chainXor _ | .chainAnd _ | .chainOr _ => false

/-- The count a command carries (R54, R56, R57); none for Insert and the chain commands. -/
def Instr.count? : Instr → Option Nat
  | .take n | .skip n | .invert n | .reverseBits n | .byteSwap n => some n
  | .logicXor n _ | .logicAnd n _ | .logicOr n _ | .block _ n => some n
  | .insert _ => none
  | .chainInvert | .chainReverseBits | .chainByteSwap => none
  | .chainXor _ | .chainAnd _ | .chainOr _ => none

end Sys2Proof
end

