-- ==== Sys2Proof/WellFormed.lean ====
section
/-! DEFINITION. Well-formed commands: the one condition 30_encoding.md puts on the fields of a
decoded command beyond their types. -/

namespace Sys2Proof

/-- R68: "`ByteSwap n` produced by `Decode` always has `n mod 8 = 0`" (R54); every other command is
well-formed whatever its fields, a `Pattern` being nonempty by its type. -/
def Instr.wf : Instr → Bool
  | .byteSwap n => n % 8 == 0
  | .take _ | .skip _ | .insert _ | .invert _ | .reverseBits _ => true
  | .logicXor _ _ | .logicAnd _ _ | .logicOr _ _ | .block _ _ => true
  | .chainInvert | .chainReverseBits | .chainByteSwap => true
  | .chainXor _ | .chainAnd _ | .chainOr _ => true

end Sys2Proof
end

