-- ==== Sys2Proof/Decode.lean ====
section
/-! DEFINITION. The command language (30_encoding.md): character codes and classes, the scanning
primitives, `Decode` and `DecodeChain`, the scan of a whole text, the encoder, and
`decodeTableWord`. -/

namespace Sys2Proof

/-! ### Character codes (R49) -/

def ch0 : Byte := 0x30#8
def ch1 : Byte := 0x31#8
def chColon : Byte := 0x3A#8
def chOpen : Byte := 0x5B#8
def chClose : Byte := 0x5D#8
def chA : Byte := 0x61#8
def chB : Byte := 0x62#8
def chI : Byte := 0x69#8
def chN : Byte := 0x6E#8
def chO : Byte := 0x6F#8
def chS : Byte := 0x73#8
def chT : Byte := 0x74#8
def chV : Byte := 0x76#8
def chX : Byte := 0x78#8

/-! ### Character classes (R48) -/

/-- `IsDigit` of R48. -/
def isDigit (c : Byte) : Bool := decide (0x30 ≤ c.toNat) && decide (c.toNat ≤ 0x39)

/-- `IsBin` of R48. -/
def isBin (c : Byte) : Bool := c == ch0 || c == ch1

/-- `IsCmdStart` of R48: one of `t s n v b x a o i [`. -/
def isCmdStart (c : Byte) : Bool :=
  c == chT || c == chS || c == chN || c == chV || c == chB || c == chX || c == chA || c == chO
    || c == chI || c == chOpen

/-! ### Scanning primitives, on the text from the position on (R50 to R53) -/

/-- `DigitRun` of R50: the digits at the front of `s`. -/
def digitRun (s : Text) : Text := s.takeWhile isDigit

/-- `ArgRun` of R51: the characters of `s` before the first command-start character. -/
def argRun (s : Text) : Text := s.takeWhile (fun c => !isCmdStart c)

/-- The value of a digit character (R52). -/
def digitVal (c : Byte) : Nat := c.toNat - 0x30

/-- `DecVal` of R52. -/
def decVal (d : Text) : Nat := d.foldl (fun acc c => acc * 10 + digitVal c) 0

/-- `BitsOf` of R53. -/
def bitsOf (r : Text) : Bits := r.map (fun c => c == ch1)

/-- The part of an argument run before its first `:` (R56, R59). -/
def beforeColon (r : Text) : Text := r.takeWhile (fun c => c != chColon)

/-- The part of an argument run after its first `:` (R56, R59). -/
def afterColon (r : Text) : Text := (r.dropWhile (fun c => c != chColon)).drop 1

/-- `make_pattern` of 41_pattern.md R77. -/
def makePattern (text : Text) : Except ErrorKind Pattern :=
  match text with
  | [] => .error .invalidPattern
  | c :: r => if (c :: r).all isBin then .ok ⟨c == ch1, bitsOf r⟩ else .error .invalidPattern

/-! ### One command: its first character and the text after it. The number beside the command is how
many argument characters it takes from that text. -/

/-- Format N (R54), for `t s n v`. -/
def decodeN (mk : Nat → Instr) (s : Text) : Except ErrorKind (Instr × Nat) :=
  if digitRun s = [] then .error .invalidArgument
  else .ok (mk (decVal (digitRun s)), (digitRun s).length)

/-- Format N for `b` (R54, R104): also a count that is a multiple of 8. -/
def decodeByteSwap (s : Text) : Except ErrorKind (Instr × Nat) :=
  if digitRun s = [] then .error .invalidArgument
  else if decVal (digitRun s) % 8 ≠ 0 then .error .invalidArgument
  else .ok (.byteSwap (decVal (digitRun s)), (digitRun s).length)

/-- Format I (R55); an empty literal is accepted (92 D10, log 15). -/
def decodeInsert (s : Text) : Except ErrorKind (Instr × Nat) :=
  if (argRun s).all isBin then .ok (.insert (bitsOf (argRun s)), (argRun s).length)
  else .error .invalidArgument

/-- Format L (R56), the checks in the order of 92 D8 (log 15). -/
def decodeL (mk : Nat → Pattern → Instr) (s : Text) : Except ErrorKind (Instr × Nat) :=
  if (argRun s).count chColon ≠ 1 then .error .invalidArgument
  else if beforeColon (argRun s) = [] ∨ (beforeColon (argRun s)).all isDigit = false then
    .error .invalidArgument
  else
    match makePattern (afterColon (argRun s)) with
    | .error k => .error k
    | .ok p => .ok (mk (decVal (beforeColon (argRun s))) p, (argRun s).length)

/-- Format CL (R59), the checks in the order of 92 D8 and D9 (log 15). -/
def decodeCL (op : LogicOp) (s : Text) : Except ErrorKind (ChainCmd × Nat) :=
  if (argRun s).count chColon ≠ 1 then .error .invalidArgument
  else if beforeColon (argRun s) ≠ [] then .error .invalidArgument
  else
    match makePattern (afterColon (argRun s)) with
    | .error k => .error k
    | .ok p => .ok (.logical op p, (argRun s).length)

/-- One chain command (R61): formats CN (R58) and CL (R59), the three characters a chain may not
hold, and every other character. -/
def decodeChainCmd (c : Byte) (s : Text) : Except ErrorKind (ChainCmd × Nat) :=
  if c = chN then .ok (.invert, 0)
  else if c = chV then .ok (.reverseBits, 0)
  else if c = chB then .ok (.byteSwap, 0)
  else if c = chX then decodeCL .xor s
  else if c = chA then decodeCL .and s
  else if c = chO then decodeCL .or s
  else if c = chT ∨ c = chS ∨ c = chI then .error .disallowedInBlock
  else .error .unknownCommand

/-- The scan of `DecodeChain`: the number is how many characters the command before has taken. -/
def decodeChainFrom : Nat → Text → Except ErrorKind (List ChainCmd)
  | _, [] => .ok []
  | k + 1, _ :: s => decodeChainFrom k s
  | 0, c :: s =>
    match decodeChainCmd c s with
    | .error e => .error e
    | .ok (cmd, used) =>
      match decodeChainFrom used s with
      | .error e => .error e
      | .ok cmds => .ok (cmd :: cmds)

/-- `DecodeChain` of R61. -/
def decodeChain (s : Text) : Except ErrorKind (List ChainCmd) := decodeChainFrom 0 s

/-- The text strictly between a block's `[` and the first `]` after it (R57, R69). -/
def chainText (s : Text) : Text := s.takeWhile (fun c => c != chClose)

/-- The text after the first `]` (R57). -/
def afterClose (s : Text) : Text := (s.dropWhile (fun c => c != chClose)).drop 1

/-- Format B (R57), the checks in the order of 92 D6 (log 15). -/
def decodeBlock (s : Text) : Except ErrorKind (Instr × Nat) :=
  if s.contains chClose = false then .error .mismatchedBrackets
  else if digitRun (afterClose s) = [] then .error .missingBlockCount
  else
    match decodeChain (chainText s) with
    | .error k => .error k
    | .ok chain =>
      .ok (.block chain (decVal (digitRun (afterClose s))),
        (chainText s).length + 1 + (digitRun (afterClose s)).length)

/-- One top-level command (R60): the format its first character selects (R62), or UnknownCommand
(R63). -/
def decodeCmd (c : Byte) (s : Text) : Except ErrorKind (Instr × Nat) :=
  if c = chT then decodeN .take s
  else if c = chS then decodeN .skip s
  else if c = chN then decodeN .invert s
  else if c = chV then decodeN .reverseBits s
  else if c = chB then decodeByteSwap s
  else if c = chI then decodeInsert s
  else if c = chX then decodeL .logicXor s
  else if c = chA then decodeL .logicAnd s
  else if c = chO then decodeL .logicOr s
  else if c = chOpen then decodeBlock s
  else .error .unknownCommand

/-- What `Decode` finds at a text position. -/
inductive Decoded where
  /-- There is no character there: outside the domain of `Decode`, the end of a pass (R86). -/
  | endOfText
  /-- `Decode` raises this error. -/
  | bad (k : ErrorKind)
  /-- A command, and the position of the next one. -/
  | command (i : Instr) (next : Nat)
  deriving DecidableEq, Repr

/-- `Decode(T, p)` of R60. -/
def decode (text : Text) (p : Nat) : Decoded :=
  match text.drop p with
  | [] => .endOfText
  | c :: s =>
    match decodeCmd c s with
    | .error k => .bad k
    | .ok (i, used) => .command i (p + 1 + used)

/-- The scan of `WF` (R66): the number is how many characters the command before has taken. -/
def commandsFrom : Nat → Text → Except ErrorKind (List Instr)
  | _, [] => .ok []
  | k + 1, _ :: s => commandsFrom k s
  | 0, c :: s =>
    match decodeCmd c s with
    | .error e => .error e
    | .ok (i, used) =>
      match commandsFrom used s with
      | .error e => .error e
      | .ok is => .ok (i :: is)

/-- `CommandsOf(T)` of R66, or the first error the scan of the whole text raises. -/
def commandsOf (text : Text) : Except ErrorKind (List Instr) := commandsFrom 0 text

/-- `WF(T)` of R66: scanning the whole text raises no error. -/
def wfText (text : Text) : Bool :=
  match commandsOf text with
  | .ok _ => true
  | .error _ => false

/-! ### The encoder, from the formats of R54 to R59 -/

/-- The character of a decimal digit (R49, R52). -/
def digitChar (d : Nat) : Byte := BitVec.ofNat 8 (0x30 + d)

/-- The decimal digits of `n`, most significant first, for a fuel of at least `n`. -/
def digitsFuel : Nat → Nat → Text
  | 0, n => [digitChar n]
  | f + 1, n => if n < 10 then [digitChar n] else digitsFuel f (n / 10) ++ [digitChar (n % 10)]

/-- A count as a digit run without leading zeros (R52). -/
def encodeNat (n : Nat) : Text := digitsFuel n n

/-- The character of a bit (R53). -/
def bitChar (b : Bit) : Byte := if b then ch1 else ch0

/-- A literal or a pattern as text (R53). -/
def encodeBits (b : Bits) : Text := b.map bitChar

/-- Format L (R56). -/
def encodeL (op : Byte) (n : Nat) (p : Pattern) : Text :=
  op :: (encodeNat n ++ chColon :: encodeBits p.bits)

/-- Format CL (R59). -/
def encodeCL (op : Byte) (p : Pattern) : Text := op :: chColon :: encodeBits p.bits

/-- A chain command as text (R58, R59). -/
def encodeChainCmd : ChainCmd → Text
  | .invert => [chN]
  | .reverseBits => [chV]
  | .byteSwap => [chB]
  | .logical .xor p => encodeCL chX p
  | .logical .and p => encodeCL chA p
  | .logical .or p => encodeCL chO p

/-- A chain as text (R57). -/
def encodeChain (chain : List ChainCmd) : Text := chain.flatMap encodeChainCmd

/-- A command as text (R54 to R59). -/
def encode : Instr → Text
  | .take n => chT :: encodeNat n
  | .skip n => chS :: encodeNat n
  | .insert lit => chI :: encodeBits lit
  | .invert n => chN :: encodeNat n
  | .reverseBits n => chV :: encodeNat n
  | .byteSwap n => chB :: encodeNat n
  | .logicXor n p => encodeL chX n p
  | .logicAnd n p => encodeL chA n p
  | .logicOr n p => encodeL chO n p
  | .block chain n => chOpen :: (encodeChain chain ++ chClose :: encodeNat n)
  | .chainInvert => encodeChainCmd .invert
  | .chainReverseBits => encodeChainCmd .reverseBits
  | .chainByteSwap => encodeChainCmd .byteSwap
  | .chainXor p => encodeChainCmd (.logical .xor p)
  | .chainAnd p => encodeChainCmd (.logical .and p)
  | .chainOr p => encodeChainCmd (.logical .or p)

/-- The first character of a command's text: the `match` column of the opcode table (R62). -/
def opcodeChar : Instr → Byte
  | .take _ => chT
  | .skip _ => chS
  | .insert _ => chI
  | .invert _ => chN
  | .reverseBits _ => chV
  | .byteSwap _ => chB
  | .logicXor _ _ => chX
  | .logicAnd _ _ => chA
  | .logicOr _ _ => chO
  | .block _ _ => chOpen
  | .chainInvert => chN
  | .chainReverseBits => chV
  | .chainByteSwap => chB
  | .chainXor _ => chX
  | .chainAnd _ => chA
  | .chainOr _ => chO

/-! ### Words of the opcode table -/

/-- The bytes of a table word, the least significant first (the first character in bits 7..0). -/
def wordBytes (nbits w : Nat) : Text :=
  (List.range (nbits / 8)).map (fun k => BitVec.ofNat 8 (w / 256 ^ k))

/-- The text of a zero operand after a bare command character: a count `0`, an empty literal, a count
`0` with the pattern `0`, an empty chain with the count `0` (DESIGN CHOICE, log 4). -/
def zeroOperand (c : Byte) : Text :=
  if c = chX ∨ c = chA ∨ c = chO then [ch0, chColon, ch0]
  else if c = chOpen then [chClose, ch0]
  else if c = chT ∨ c = chS ∨ c = chN ∨ c = chV ∨ c = chB then [ch0]
  else []

/-- The program text that a table word stands for: its characters and, for a bare command character
(all the table gives a row), the zero operand of its format (log 4). -/
def tableText (nbits w : Nat) : Text :=
  match wordBytes nbits w with
  | [c] => c :: zeroOperand c
  | text => text

/-- The instruction the decoder reads from a word numbered as spec/opcode_table.json numbers it. -/
def decodeTableWord (nbits w : Nat) : Option Instr :=
  match decode (tableText nbits w) 0 with
  | .command i _ => some i
  | .bad _ => none
  | .endOfText => none

end Sys2Proof
end

