-- ==== Sys2Proof/Config.lean ====
section
/-! DEFINITION. The parameters of 00_scope.md R7 that an implementation fixes, and the free values:
what the spec leaves unspecified while the machine goes on. -/

namespace Sys2Proof

/-- `MAX_IN_BYTES` at the spec's default, unbounded (R7, 92 D4, log 8). -/
def Config.maxInBytes : Option Nat := none

/-- `MAX_PROG_CHARS` at the spec's default, unbounded (R7, 92 D4, log 8). -/
def Config.maxProgChars : Option Nat := none

/-- `MAX_OUT_BITS` at the spec's default, unbounded (R7, 92 D4, log 8). -/
def Config.maxOutBits : Option Nat := none

/-- Whether `n` is within a capacity; no capacity admits every `n` (R7). -/
def Config.within (cap : Option Nat) (n : Nat) : Bool :=
  match cap with
  | none => true
  | some m => decide (n ≤ m)

/-- Free value (log 6): unspecified bytes, of INB, PROG or OUTB (10_state.md R30, 93 U10). -/
opaque Config.freeBytes : Nat → Bytes

/-- Free value (log 6): unspecified bits, of OUT (10_state.md R30). -/
opaque Config.freeBits : Nat → Bits

/-- Free value (log 6): an unspecified natural, of RS, RE, pos, tp, pass or OUT_NBYTES (10_state.md R30). -/
opaque Config.freeNat : Nat → Nat

/-- Free value (log 6): an unspecified integer, of ARG_START or ARG_END (10_state.md R30). -/
opaque Config.freeInt : Nat → Int

/-- Free value (log 6): an unspecified bit, of VERBOSE or VERBOSE_ONCE (10_state.md R30). -/
opaque Config.freeBit : Nat → Bit

end Sys2Proof
end

