-- ==== Sys2Proof/Machine/State.lean ====
section
/-! DEFINITION. The state of the BTU (10_state.md), the host's pending actions, the reasons a step
can stop, and the state after reset (R30). -/

namespace Sys2Proof.Machine

/-- `STATUS` of R25. -/
inductive Status where
  | idle
  | busy
  | doneOk
  | doneErr
  deriving DecidableEq, Repr

/-- An action of the host on the unit (R27, R139, R140, R141). -/
inductive HostReq where
  /-- write INB -/
  | writeInb (b : Bytes)
  /-- write PROG -/
  | writeProg (t : Text)
  /-- write ARG_START -/
  | writeArgStart (n : Int)
  /-- write ARG_END -/
  | writeArgEnd (n : Int)
  /-- write VERBOSE -/
  | writeVerbose (b : Bit)
  /-- write VERBOSE_ONCE -/
  | writeVerboseOnce (b : Bit)
  /-- the GO event (R139) -/
  | go
  /-- assert the hardware reset (R140) -/
  | reset
  deriving DecidableEq, Repr

/-- A record of the trace sink (60_exceptions.md R136): "a trace record `(pass, cmd)`" (log 10). -/
structure TraceRec where
  pass : Nat
  cmd  : Instr
  deriving DecidableEq, Repr

/-- The state of the BTU: one field per piece of state of INVENTORY.md's '## State'. -/
structure State where
  /-- INB (R15) -/
  inb : Bytes
  /-- PROG (R16) -/
  prog : Text
  /-- ARG_START (R17) -/
  argStart : Int
  /-- ARG_END (R17) -/
  argEnd : Int
  /-- VERBOSE (R19) -/
  verbose : Bit
  /-- VERBOSE_ONCE (R19) -/
  verboseOnce : Bit
  /-- STATUS (R25) -/
  status : Status
  /-- ERR (R25, R122) -/
  err : Fin 8
  /-- OUTB (R25) -/
  outb : Bytes
  /-- OUT_NBYTES (R25) -/
  outNbytes : Nat
  /-- RS (R18) -/
  rs : Nat
  /-- RE (R18) -/
  re : Nat
  /-- the cursor (R20) -/
  pos : Nat
  /-- the text position (R21) -/
  tp : Nat
  /-- the pass index (R22) -/
  pass : Nat
  /-- OUT, the output accumulator (R23) -/
  out : Bits
  /-- W, the block's working copy (R26 (c), R135), empty between commands (log 7) -/
  work : Bits
  /-- what the trace sink has received, oldest first (R136, log 10) -/
  trace : List TraceRec
  /-- the model's own: the host's pending actions, oldest first (log 2) -/
  hostIn : List HostReq
  /-- the model's own: which free value comes next (log 6) -/
  freeCtr : Nat
  deriving DecidableEq, Repr

/-- Why the machine stops with a fault. -/
inductive Fault where
  /-- Raised by the meanings that read a chunk, when the bits asked for are not inside the window and
  the input: `MemRead` "requires `RS ≤ a` and `a + m ≤ RE`" (00_scope.md R10, 20_memory.md R37). Safe:
  no state of a run reaches it (log 9). -/
  | readOutsideWindow
  deriving DecidableEq, Repr

/-- Why the model gives no meaning. -/
inductive Refusal where
  /-- Raised by an arm of `exec` whose instruction has no meaning yet; no arm does. Safe. -/
  | notModelled (mnemonic : String)
  /-- Raised by a step that serves a host write or GO while STATUS is BUSY: "a model gives such a run
  no meaning" (70_reset_and_hazards.md R141, 92 D18, 93 U9). Safe (log 17). -/
  | hostAccessWhileBusy
  /-- Raised by GO when INB exceeds MAX_IN_BYTES (93 U5); unreachable at the default. Safe (log 8). -/
  | inputCapacityExceeded
  /-- Raised by GO when PROG exceeds MAX_PROG_CHARS (93 U5); unreachable at the default. Safe (log 8). -/
  | programCapacityExceeded
  /-- Raised by an append that would pass MAX_OUT_BITS (93 U5, 70 R143); unreachable at the default.
  Safe (log 8). -/
  | outputCapacityExceeded
  deriving DecidableEq, Repr

/-- The state after hardware reset: STATUS, ERR, OUTB and OUT_NBYTES as R30 says; every field the spec
leaves unspecified at the value log 5 names (DESIGN CHOICE). -/
def State.reset : State where
  inb := []
  prog := []
  argStart := 0
  argEnd := 0
  verbose := false
  verboseOnce := false
  status := .idle
  err := 0
  outb := []
  outNbytes := 0
  rs := 0
  re := 0
  pos := 0
  tp := 0
  pass := 0
  out := []
  work := []
  trace := []
  hostIn := []
  freeCtr := 0

/-- The outcome of a step or a meaning. -/
abbrev Result := Host.Outcome State Fault Refusal

end Sys2Proof.Machine
end

