-- ==== Sys2Proof/Machine/Operands.lean ====
section
/-! DEFINITION. What commands compute with: the datapath units as pure functions on chunks
(40_bit_packing.md, 41_pattern.md, 43 R100, 44 R101, R103, 45 R106), the clamped count (R87) and the
input bits a command reads (R32, R96). -/

namespace Sys2Proof.Machine

/-! ### The bit packer/unpacker (40_bit_packing.md) -/

/-- The bits of a byte, most significant first (00_scope.md R8). -/
def byteBits (b : Byte) : Bits := (List.range 8).map (fun i => b.getLsbD (7 - i))

/-- `pack_to_bits` of R71. -/
def packToBits (b : Bytes) : Bits := b.flatMap byteBits

/-- Byte `j` of `unpack_from_bits(S)`: the sum of `bit(8j+k)·2^(7-k)`, a bit past the end being 0 (R72). -/
def packedByte (s : Bits) (j : Nat) : Byte :=
  BitVec.ofNat 8 ((List.range 8).map (fun k => (s.getD (8 * j + k) false).toNat * 2 ^ (7 - k))).sum

/-- `unpack_from_bits` of R72. -/
def unpackFromBits (s : Bits) : Bytes := (List.range (ceil8 s.length)).map (packedByte s)

/-! ### The pattern store (41_pattern.md) -/

/-- `bit_at(P, i) = P[i mod L]` of R78. -/
def bitAt (p : Pattern) (i : Nat) : Bit := p.bits.getD (i % p.bits.length) false

/-! ### The units on a chunk -/

/-- `INV` of 43_stream_ops.md R100. -/
def inv (c : Bits) : Bits := c.map (fun b => !b)

/-- `BREV` of 44_reorder_ops.md R101. -/
def brev (c : Bits) : Bits := c.reverse

/-- Byte `k` of a chunk, `c[8k : 8k+8]` (20_memory.md R36, R103). -/
def chunkByte (c : Bits) (k : Nat) : Bits := (c.drop (8 * k)).take 8

/-- `BSWAP` of 44_reorder_ops.md R103: the whole bytes in reverse order, then the trailing partial byte. -/
def bswap (c : Bits) : Bits :=
  (List.range (c.length / 8)).reverse.flatMap (chunkByte c) ++ c.drop (8 * (c.length / 8))

/-- `f_op` of 45_logical_ops.md R106. -/
def bitOp (op : LogicOp) (d p : Bit) : Bit :=
  match op with
  | .xor => d ^^ p
  | .and => d && p
  | .or => d || p

/-- `MASK` of 45_logical_ops.md R106. -/
def mask (op : LogicOp) (c : Bits) (p : Pattern) : Bits :=
  c.zipIdx.map (fun x => bitOp op x.1 (bitAt p x.2))

/-! ### The operand of a command -/

/-- `INBITS`, the bit view of INB (10_state.md R15). -/
def State.inbits (s : State) : Bits := packToBits s.inb

/-- `LEN = 8·NB` (10_state.md R15). -/
def State.len (s : State) : Nat := 8 * s.inb.length

/-- The clamped count `min(n, RE - pos)` (42_sequencer.md R87). -/
def clampCount (s : State) (n : Nat) : Nat := min n (s.re - s.pos)

/-- `MemRead(a, m)` (00_scope.md R10, 20_memory.md R32): the input bits `a .. a+m-1`, where they lie
inside the window and the input. -/
def memRead (s : State) (a m : Nat) : Option Bits :=
  if s.rs ≤ a ∧ a + m ≤ s.re ∧ a + m ≤ s.len then some ((s.inbits.drop a).take m) else none

/-- The input bits `a .. a+m-1` (the value of `MemRead` where it is defined). -/
def inputSlice (s : State) (a m : Nat) : Bits := (s.inbits.drop a).take m

end Sys2Proof.Machine
end

