-- ==== Sys2Proof/Machine/Flags.lean ====
section
/-! DEFINITION. The conditions the sequencer tests. The BTU has no condition code a command sets
(10_state.md R24); what it has are the engine state ST and the trace gate. -/

namespace Sys2Proof.Machine

/-- `ST` of 10_state.md R24. -/
inductive Engine where
  | running
  | exhausted
  deriving DecidableEq, Repr

/-- "`ST = Exhausted` if and only if `pos ≥ RE` or `PL = 0`" (R24, R84). -/
def exhausted (s : State) : Bool := decide (s.re ≤ s.pos) || s.prog.isEmpty

/-- `ST`, a function of the other state (R24). -/
def engineState (s : State) : Engine := if exhausted s then .exhausted else .running

/-- When a trace record is emitted (60_exceptions.md R136): VERBOSE, or VERBOSE_ONCE in pass 0. -/
def traceGate (s : State) : Bool := s.verbose || (s.verboseOnce && s.pass == 0)

end Sys2Proof.Machine
end

