-- ==== Sys2Proof/Machine/Ops.lean ====
section
/-! DEFINITION. The operations that commands and the sequencer share: appending to OUT, reading and
consuming a chunk, raising an error (60_exceptions.md R130), the start and the end of an invocation
(42_sequencer.md R81 to R90), and the host's actions (10_state.md R27, 70 R139 to R141). -/

namespace Sys2Proof.Machine

/-- Go on from a next state; a fault or a refusal stands. -/
def andThen (r : Result) (k : State → Result) : Result :=
  match r with
  | .next s => k s
  | .fault f => .fault f
  | .refused x => .refused x

/-! ### What commands do -/

/-- `OutAppend(v)` (00_scope.md R10, 20_memory.md R33), refused past MAX_OUT_BITS (93 U5). -/
def outAppend (v : Bits) (s : State) : Result :=
  if Config.within Config.maxOutBits (s.out.length + v.length) then .next { s with out := s.out ++ v }
  else .refused .outputCapacityExceeded

/-- `pos <- pos + m` (R96). -/
def advance (m : Nat) (s : State) : State := { s with pos := s.pos + m }

/-- A command that reads its clamped chunk, appends the chunk's image under a unit, and moves the
cursor past the chunk (R87, R88, R96). -/
def consume (f : Bits → Bits) (n : Nat) (s : State) : Result :=
  match memRead s s.pos (clampCount s n) with
  | none => .fault .readOutsideWindow
  | some c => andThen (outAppend (f c) s) (fun t => .next (advance (clampCount s n) t))

/-- A chain command: its unit on the whole working copy W (46_block.md R112). -/
def onWork (f : Bits → Bits) (s : State) : State := { s with work := f s.work }

/-! ### Errors -/

/-- The numeric code of an error kind (60_exceptions.md R122, 92 D15). -/
def errorCode : ErrorKind → Fin 8
  | .rangeError => 1
  | .invalidArgument => 2
  | .invalidPattern => 3
  | .mismatchedBrackets => 4
  | .missingBlockCount => 5
  | .disallowedInBlock => 6
  | .unknownCommand => 7

/-- `raise K` (60_exceptions.md R130): the one exceptional event of the BTU. The invocation ends, OUT is
discarded, the result registers say which error; there is no handler and nothing is saved. -/
def raiseError (k : ErrorKind) (s : State) : State :=
  { s with status := .doneErr, err := errorCode k, outb := [], outNbytes := 0, out := [] }

/-! ### Start and end of an invocation -/

/-- `ARG_END` after normalisation, the `e` of 42_sequencer.md R82: `≤ 0` and `> LEN` mean `LEN`. -/
def rangeEnd (argEnd : Int) (len : Nat) : Int :=
  if argEnd ≤ 0 ∨ (len : Int) < argEnd then (len : Int) else argEnd

/-- `NormaliseRange` of 42_sequencer.md R82: the window `(RS, RE)`, or RangeError. -/
def normaliseRange (argStart argEnd : Int) (len : Nat) : Except ErrorKind (Nat × Nat) :=
  if argStart < 0 ∨ (len : Int) < argStart then .error .rangeError
  else if rangeEnd argEnd len < argStart then .error .rangeError
  else .ok (argStart.toNat, (rangeEnd argEnd len).toNat)

/-- The state at the start of an invocation (10_state.md R29), OUTB and OUT_NBYTES holding free values
until the run ends (93 U10, log 6). -/
def beginRun (rs re : Nat) (s : State) : State :=
  { s with
    rs := rs, re := re, pos := rs, out := [], tp := 0, pass := 0, status := .busy, err := 0
    work := [], trace := []
    outb := Config.freeBytes s.freeCtr, outNbytes := Config.freeNat s.freeCtr
    freeCtr := s.freeCtr + 1 }

/-- GO (70_reset_and_hazards.md R139; 42_sequencer.md R81 (1) to (3)): check the capacities and the
range, then take the state of R29, or end at once with RangeError. -/
def startRun (s : State) : Result :=
  if Config.within Config.maxInBytes s.inb.length = false then .refused .inputCapacityExceeded
  else if Config.within Config.maxProgChars s.prog.length = false then .refused .programCapacityExceeded
  else
    match normaliseRange s.argStart s.argEnd s.len with
    | .error k => .next (raiseError k { s with trace := [] })
    | .ok (rs, re) => .next (beginRun rs re s)

/-- The successful end of a run (42_sequencer.md R90). -/
def finishRun (s : State) : State :=
  { s with
    status := .doneOk, err := 0, outb := unpackFromBits s.out, outNbytes := ceil8 s.out.length }

/-- The end of a pass, at the end of the text or by the early stop (42_sequencer.md R85, R86): the pass
is counted, then the loop condition is tested (R84) and either the run is over or `tp <- 0`. -/
def endPass (s : State) : State :=
  if exhausted s then finishRun { s with pass := s.pass + 1 }
  else { s with pass := s.pass + 1, tp := 0 }

/-- The trace record of a command about to be executed, if the gate is open (60_exceptions.md R136). -/
def emitTrace (i : Instr) (s : State) : State :=
  if traceGate s then { s with trace := s.trace ++ [⟨s.pass, i⟩] } else s

/-! ### The host -/

/-- Hardware reset (70_reset_and_hazards.md R140): STATUS, ERR and the outputs as R30 says, everything
R30 calls unspecified a free value (log 6). The host's own pending actions are not the unit's. -/
def hardReset (s : State) : State :=
  { inb := Config.freeBytes s.freeCtr, prog := Config.freeBytes (s.freeCtr + 1)
    argStart := Config.freeInt s.freeCtr, argEnd := Config.freeInt (s.freeCtr + 1)
    verbose := Config.freeBit s.freeCtr, verboseOnce := Config.freeBit (s.freeCtr + 1)
    status := .idle, err := 0, outb := [], outNbytes := 0
    rs := Config.freeNat s.freeCtr, re := Config.freeNat (s.freeCtr + 1)
    pos := Config.freeNat (s.freeCtr + 2), tp := Config.freeNat (s.freeCtr + 3)
    pass := Config.freeNat (s.freeCtr + 4), out := Config.freeBits s.freeCtr
    work := [], trace := [], hostIn := s.hostIn, freeCtr := s.freeCtr + 5 }

/-- A write of an input register, which the host may not make while the unit is BUSY (R27, R141). -/
def hostWrite (f : State → State) (s : State) : Result :=
  if s.status = .busy then .refused .hostAccessWhileBusy else .next (f s)

/-- One action of the host (R27, R139 to R141). -/
def serveHost (a : HostReq) (s : State) : Result :=
  match a with
  | .writeInb b => hostWrite (fun t => { t with inb := b }) s
  | .writeProg x => hostWrite (fun t => { t with prog := x }) s
  | .writeArgStart n => hostWrite (fun t => { t with argStart := n }) s
  | .writeArgEnd n => hostWrite (fun t => { t with argEnd := n }) s
  | .writeVerbose b => hostWrite (fun t => { t with verbose := b }) s
  | .writeVerboseOnce b => hostWrite (fun t => { t with verboseOnce := b }) s
  | .go => if s.status = .busy then .refused .hostAccessWhileBusy else startRun s
  | .reset => .next (hardReset s)

end Sys2Proof.Machine
end

