-- ==== Sys2Proof/Machine/Block.lean ====
section
/-! DEFINITION. The block command `[` and the six chain commands (46_block.md). -/

namespace Sys2Proof.Machine

/-- chain `n` CInvert (R113). -/
def execChainInvert (s : State) : Result := .next (onWork inv s)

/-- chain `v` CReverseBits (R114). -/
def execChainReverseBits (s : State) : Result := .next (onWork brev s)

/-- chain `b` CByteSwap (R115): no multiple-of-8 check. -/
def execChainByteSwap (s : State) : Result := .next (onWork bswap s)

/-- chain `x` CLogical(Xor, P) (R116). -/
def execChainXor (p : Pattern) (s : State) : Result := .next (onWork (fun w => mask .xor w p) s)

/-- chain `a` CLogical(And, P) (R117). -/
def execChainAnd (p : Pattern) (s : State) : Result := .next (onWork (fun w => mask .and w p) s)

/-- chain `o` CLogical(Or, P) (R118). -/
def execChainOr (p : Pattern) (s : State) : Result := .next (onWork (fun w => mask .or w p) s)

/-- `Apply1` of R112: the meaning of one command of a chain. -/
def execChainCmd (k : ChainCmd) (s : State) : Result :=
  match k with
  | .invert => execChainInvert s
  | .reverseBits => execChainReverseBits s
  | .byteSwap => execChainByteSwap s
  | .logical .xor p => execChainXor p s
  | .logical .and p => execChainAnd p s
  | .logical .or p => execChainOr p s

/-- The loop of `ApplyChain` (R112): the chain's commands on W, first to last. -/
def runChain : List ChainCmd → State → Result
  | [], s => .next s
  | k :: ks, s => andThen (execChainCmd k s) (runChain ks)

/-- The end of a block (R111): append W, give it up, move the cursor past the chunk. -/
def closeBlock (m : Nat) (s : State) : Result :=
  andThen (outAppend s.work s) (fun t => .next (advance m { t with work := [] }))

/-- `[` Block(chain, n) (R111): one read, the chain on the working copy, one append, one advance. -/
def execBlock (chain : List ChainCmd) (n : Nat) (s : State) : Result :=
  match memRead s s.pos (clampCount s n) with
  | none => .fault .readOutsideWindow
  | some c => andThen (runChain chain { s with work := c }) (closeBlock (clampCount s n))

end Sys2Proof.Machine
end

