-- ==== Sys2Proof/Machine/Logical.lean ====
section
/-! DEFINITION. The logical commands `x a o` (45_logical_ops.md). -/

namespace Sys2Proof.Machine

/-- `x` Logical(Xor, n, P) (R107). -/
def execLogicXor (n : Nat) (p : Pattern) (s : State) : Result := consume (fun c => mask .xor c p) n s

/-- `a` Logical(And, n, P) (R108). -/
def execLogicAnd (n : Nat) (p : Pattern) (s : State) : Result := consume (fun c => mask .and c p) n s

/-- `o` Logical(Or, n, P) (R109). -/
def execLogicOr (n : Nat) (p : Pattern) (s : State) : Result := consume (fun c => mask .or c p) n s

end Sys2Proof.Machine
end

