-- ==== Sys2Proof/Machine/Reorder.lean ====
section
/-! DEFINITION. The reorder commands `v b` (44_reorder_ops.md). -/

namespace Sys2Proof.Machine

/-- `v` ReverseBits(n) (R102). -/
def execReverseBits (n : Nat) (s : State) : Result := consume brev n s

/-- `b` ByteSwap(n) (R104); the multiple-of-8 test is the decoder's. -/
def execByteSwap (n : Nat) (s : State) : Result := consume bswap n s

end Sys2Proof.Machine
end

