-- ==== Sys2Proof/Machine/Stream.lean ====
section
/-! DEFINITION. The stream commands `t s i n` (43_stream_ops.md). -/

namespace Sys2Proof.Machine

/-- `t` Take(n) (R97). -/
def execTake (n : Nat) (s : State) : Result := consume (fun c => c) n s

/-- `s` Skip(n) (R98): the skipped bits are not read. -/
def execSkip (n : Nat) (s : State) : Result := .next (advance (clampCount s n) s)

/-- `i` Insert(lit) (R99): the whole literal, not clamped; `pos` is neither read nor written. -/
def execInsert (lit : Bits) (s : State) : Result := outAppend lit s

/-- `n` Invert(n) (R100). -/
def execInvert (n : Nat) (s : State) : Result := consume inv n s

end Sys2Proof.Machine
end

