-- ==== Sys2Proof/Machine/Dispatch.lean ====
section
/-! DEFINITION. `Execute(cmd)` (42_sequencer.md R88): one arm per row of the opcode table. -/

namespace Sys2Proof.Machine

def exec (i : Instr) (s : State) : Host.Outcome State Fault Refusal :=
  match i with
  | .take n => Sys2Proof.Machine.execTake n s
  | .skip n => Sys2Proof.Machine.execSkip n s
  | .insert lit => Sys2Proof.Machine.execInsert lit s
  | .invert n => Sys2Proof.Machine.execInvert n s
  | .reverseBits n => Sys2Proof.Machine.execReverseBits n s
  | .byteSwap n => Sys2Proof.Machine.execByteSwap n s
  | .logicXor n p => Sys2Proof.Machine.execLogicXor n p s
  | .logicAnd n p => Sys2Proof.Machine.execLogicAnd n p s
  | .logicOr n p => Sys2Proof.Machine.execLogicOr n p s
  | .block chain n => Sys2Proof.Machine.execBlock chain n s
  | .chainInvert => Sys2Proof.Machine.execChainInvert s
  | .chainReverseBits => Sys2Proof.Machine.execChainReverseBits s
  | .chainByteSwap => Sys2Proof.Machine.execChainByteSwap s
  | .chainXor p => Sys2Proof.Machine.execChainXor p s
  | .chainAnd p => Sys2Proof.Machine.execChainAnd p s
  | .chainOr p => Sys2Proof.Machine.execChainOr p s

end Sys2Proof.Machine
end

