-- ==== Sys2Proof/Machine/Sequencer.lean ====
section
/-! DEFINITION. One step of the sequencer (42_sequencer.md R84 to R92), and the placing of a program
word for `State.withFetchWord`. -/

namespace Sys2Proof.Machine

/-- Execute a decoded command (R86, R88, R89 (a)): its trace record, its effect, then `tp` at the
position `Decode` returned. -/
def runCommand (i : Instr) (q : Nat) (s : State) : Result :=
  andThen (exec i (emitTrace i s)) (fun t => .next { t with tp := q })

/-- A step of a run in progress. `tp = 0` is the start of a pass, where the loop condition is tested
(R84 (a)); inside a pass the command at `tp` is decoded, then `pos ≥ RE` is tested, then the command is
executed (R86, 92 D5, log 14). -/
def runStep (s : State) : Result :=
  if s.tp = 0 ∧ exhausted s then .next (finishRun s)
  else
    match decode s.prog s.tp with
    | .endOfText => .next (endPass s)
    | .bad k => .next (raiseError k s)
    | .command i q => if s.re ≤ s.pos then .next (endPass s) else runCommand i q s

/-- A step of the unit: a pending action of the host if there is one (log 2), else a step of the run in
progress, else nothing (log 11). -/
def cycle (s : State) : Result :=
  match s.hostIn with
  | a :: rest => serveHost a { s with hostIn := rest }
  | [] => if s.status = .busy then runStep s else .next s

/-- A run in progress at the start of the text with no host action pending and no block open. -/
def atTextStart (text : Text) (s : State) : State :=
  { s with prog := text, tp := 0, status := .busy, hostIn := [], work := [] }

/-- A window with a bit left in it: the state's own, or the whole of one zero byte of input (log 3). -/
def openWindow (s : State) : State :=
  if s.rs ≤ s.pos ∧ s.pos < s.re ∧ s.re ≤ s.len then s
  else { s with inb := [0#8], rs := 0, re := 8, pos := 0 }

end Sys2Proof.Machine
end

