-- ==== Sys2Proof/Machine/Step.lean ====
section
/-! DEFINITION. The step function, and where a table word is placed so that the next step runs it. -/

namespace Sys2Proof.Machine

/-- One step of the BTU. -/
def step (s : State) : Host.Outcome State Fault Refusal := cycle s

/-- `s` as a run in progress whose program text is the given table word, at its first character, with a
nonempty window: what GO with that text in PROG stands for (log 3). -/
def State.withFetchWord (s : State) (nbits w : Nat) : State :=
  openWindow (atTextStart (tableText nbits w) s)

end Sys2Proof.Machine
end

