-- ==== Sys2Proof/Safety.lean ====
section
/-! DEFINITION. What counts as a safe state of a run, and the reference functions claims compare the
machine with: `ApplyChain` (46_block.md R112) and the parse-once replay (42_sequencer.md R95). -/

namespace Sys2Proof.Machine

/-! ### Safe states -/

/-- The window and cursor invariant `RS ≤ pos ≤ RE ≤ LEN` (10_state.md R18, R20). -/
abbrev windowOk (s : State) : Prop := s.rs ≤ s.pos ∧ s.pos ≤ s.re ∧ s.re ≤ s.len

/-- The form of the three memory spaces (20_memory.md R31, R41): each is a dense sequence, so equal
memories are equal data whatever they hold (log 18); during a run the window lies inside the input
space, the cursor inside the window and the text position inside the program space. -/
def Memory.wf (s : State) : Bool :=
  decide (s.status ≠ .busy) || (decide (windowOk s) && decide (s.tp ≤ s.prog.length))

/-- A run in progress with no host action pending. -/
abbrev inRun (s : State) : Prop := s.status = .busy ∧ s.hostIn = []

/-- What holds of every state between two steps. -/
structure UnitInv (s : State) : Prop where
  /-- window, cursor (R18, R20) and text position (R21) during a run -/
  memory : Memory.wf s = true
  /-- no block is open between commands (R26 (c)) -/
  noWork : s.work = []
  /-- ERR is 0 while BUSY (R29) -/
  busyErr : s.status = .busy → s.err = 0
  /-- the result registers after a successful run (R90) -/
  okResult : s.status = .doneOk → s.err = 0 ∧ s.outb = unpackFromBits s.out ∧ s.outNbytes = s.outb.length
  /-- the result registers after an error (R130) -/
  errResult : s.status = .doneErr → s.err ≠ 0 ∧ s.outb = [] ∧ s.outNbytes = 0 ∧ s.out = []
  /-- the result registers before the first run (R30) -/
  idleResult : s.status = .idle → s.err = 0 ∧ s.outb = [] ∧ s.outNbytes = 0

/-! ### Reference functions -/

/-- `Apply1` of R112 as a function on the working copy. -/
def apply1 : ChainCmd → Bits → Bits
  | .invert, w => inv w
  | .reverseBits, w => brev w
  | .byteSwap, w => bswap w
  | .logical op p, w => mask op w p

/-- `ApplyChain` of R112 as a function on the chunk: the commands in order, first to last. -/
def applyChain (chain : List ChainCmd) (c : Bits) : Bits := chain.foldl (fun w k => apply1 k w) c

/-- What a command appends to OUT, given the chunk it reads (R88). -/
def appended : Instr → Bits → Bits
  | .take _, c => c
  | .skip _, _ => []
  | .insert lit, _ => lit
  | .invert _, c => inv c
  | .reverseBits _, c => brev c
  | .byteSwap _, c => bswap c
  | .logicXor _ p, c => mask .xor c p
  | .logicAnd _ p, c => mask .and c p
  | .logicOr _ p, c => mask .or c p
  | .block chain _, c => applyChain chain c
  | .chainInvert, _ => []
  | .chainReverseBits, _ => []
  | .chainByteSwap, _ => []
  | .chainXor _, _ => []
  | .chainAnd _, _ => []
  | .chainOr _, _ => []

/-- How far a command moves the cursor with `left` bits left in the window (R87). -/
def moved (i : Instr) (left : Nat) : Nat := (i.count?.map (fun n => min n left)).getD 0

/-- One pass of the parse-once replay on (cursor, output), with the early stop (R95). -/
def replayPass (inbits : Bits) (re : Nat) : List Instr → Nat × Bits → Nat × Bits
  | [], st => st
  | i :: is, st =>
    if re ≤ st.1 then st
    else
      replayPass inbits re is
        (st.1 + moved i (re - st.1), st.2 ++ appended i ((inbits.drop st.1).take (moved i (re - st.1))))

/-- The parse-once replay of R95 for at most `fuel` passes: the output bits if it has ended. -/
def replay (inbits : Bits) (re : Nat) (cmds : List Instr) : Nat → Nat × Bits → Option Bits
  | 0, st => if re ≤ st.1 ∨ cmds = [] then some st.2 else none
  | fuel + 1, st =>
    if re ≤ st.1 ∨ cmds = [] then some st.2
    else replay inbits re cmds fuel (replayPass inbits re cmds st)

/-- `k` steps of the machine. -/
def runSteps (k : Nat) (s : State) : Result := Host.Core.run Sys2Proof.core k s

end Sys2Proof.Machine
end

