-- ==== Sys2Proof/Certificates/Slice0/Obligations.lean ====
section
/-! DEFINITION. The statements about the BTU, from the numbered rules of spec/. Each docstring names the
rule, and says where a clause is the spec's own decision or the model's own choice (log n is
notes/assumptions/n.md). -/

open Sys2Proof Sys2Proof.Machine

/-! ### The decoder (30_encoding.md) -/

/-- Program texts written out byte by byte from the formats of R54 to R59 with the codes of R49 decode to
the commands of R62. -/
def Obligations.WrittenOutWordsDecode : Prop :=
  decode [0x74#8, 0x31#8, 0x32#8] 0 = .command (.take 12) 3 ∧
  decode [0x73#8, 0x30#8, 0x37#8] 0 = .command (.skip 7) 3 ∧
  decode [0x69#8, 0x31#8, 0x30#8, 0x74#8] 0 = .command (.insert [true, false]) 3 ∧
  decode [0x6E#8, 0x35#8] 0 = .command (.invert 5) 2 ∧
  decode [0x74#8, 0x38#8, 0x76#8, 0x39#8] 2 = .command (.reverseBits 9) 4 ∧
  decode [0x62#8, 0x31#8, 0x36#8] 0 = .command (.byteSwap 16) 3 ∧
  decode [0x78#8, 0x33#8, 0x3A#8, 0x31#8, 0x30#8] 0 = .command (.logicXor 3 ⟨true, [false]⟩) 5 ∧
  decode [0x61#8, 0x34#8, 0x3A#8, 0x30#8] 0 = .command (.logicAnd 4 ⟨false, []⟩) 4 ∧
  decode [0x6F#8, 0x35#8, 0x3A#8, 0x31#8] 0 = .command (.logicOr 5 ⟨true, []⟩) 4 ∧
  decode [0x5B#8, 0x76#8, 0x6E#8, 0x62#8, 0x5D#8, 0x38#8] 0 =
    .command (.block [.reverseBits, .invert, .byteSwap] 8) 6 ∧
  decode [0x5B#8, 0x78#8, 0x3A#8, 0x31#8, 0x61#8, 0x3A#8, 0x30#8, 0x6F#8, 0x3A#8, 0x31#8, 0x5D#8, 0x39#8] 0 =
    .command (.block [.logical .xor ⟨true, []⟩, .logical .and ⟨false, []⟩, .logical .or ⟨true, []⟩] 9) 12

/-- Decode and encode agree: every well-formed top-level command, at any position of a text and before
any text that is empty or begins with a command-start character, decodes to itself, and the position
returned is just past it. -/
def Obligations.DecodeOfEncodeIsTheCommand : Prop :=
  ∀ (i : Instr) (before rest : Text), i.topLevel = true → i.wf = true →
    (rest = [] ∨ ∃ c r, rest = c :: r ∧ isCmdStart c = true) →
    decode (before ++ encode i ++ rest) before.length =
      .command i (before.length + (encode i).length)

/-- A whole program text written from a list of well-formed top-level commands is well-formed and its
commands are that list (R66). -/
def Obligations.CommandsOfEncodedProgram : Prop :=
  ∀ cmds : List Instr, (∀ i ∈ cmds, i.topLevel = true ∧ i.wf = true) →
    commandsOf (cmds.flatMap encode) = .ok cmds ∧ wfText (cmds.flatMap encode) = true

/-- Every chain written as text decodes to itself in the chain context, and the text of a chain row of
the opcode table is that one chain command (R58, R59, R61). -/
def Obligations.DecodeChainOfEncodedChain : Prop :=
  (∀ chain : List ChainCmd, decodeChain (encodeChain chain) = .ok chain) ∧
  (∀ k : ChainCmd, decodeChain (encode k.toInstr) = .ok [k])

/-- "The returned position `q` satisfies `p < q ≤ len(T)`" (R60, marked derived there); the command is a
top-level one and well-formed (R68). -/
def Obligations.DecodeMovesForward : Prop :=
  ∀ (text : Text) (p : Nat) (i : Instr) (q : Nat), decode text p = .command i q →
    p < q ∧ q ≤ text.length ∧ i.topLevel = true ∧ i.wf = true

/-- The scan of a whole text is `Decode` again and again (R66), and a text has a command or an error at
every position inside it and at no other. -/
def Obligations.ScanIsRepeatedDecode : Prop :=
  ∀ (text : Text) (p : Nat),
    (decode text p = .endOfText ↔ text.length ≤ p) ∧
    (decode text p = .endOfText → commandsOf (text.drop p) = .ok []) ∧
    (∀ k, decode text p = .bad k → commandsOf (text.drop p) = .error k) ∧
    (∀ i q, decode text p = .command i q →
      commandsOf (text.drop p) = (commandsOf (text.drop q)).map (fun is => i :: is))

/-- `DigitRun` (R50): the run ends at the first character that is not a digit, or at the end. -/
def Obligations.DigitRunEndsAtFirstNonDigit : Prop :=
  ∀ (text : Text) (p : Nat), p ≤ text.length →
    ∃ q, p ≤ q ∧ q ≤ text.length ∧
      (q = text.length ∨ ∃ c, text[q]? = some c ∧ isDigit c = false) ∧
      (∀ k, p ≤ k → k < q → ∃ c, text[k]? = some c ∧ isDigit c = true) ∧
      digitRun (text.drop p) = (text.drop p).take (q - p) ∧ (digitRun (text.drop p)).length = q - p

/-- `ArgRun` (R51): the run ends at the first command-start character, or at the end, and at nothing else:
not at a `]` nor at a character of no class (R64). That a chain's text is scanned with the same ten
characters is the spec's decision D26. -/
def Obligations.ArgRunEndsAtFirstCommandStart : Prop :=
  ∀ (text : Text) (p : Nat), p ≤ text.length →
    ∃ q, p ≤ q ∧ q ≤ text.length ∧
      (q = text.length ∨ ∃ c, text[q]? = some c ∧ isCmdStart c = true) ∧
      (∀ k, p ≤ k → k < q → ∃ c, text[k]? = some c ∧ isCmdStart c = false) ∧
      argRun (text.drop p) = (text.drop p).take (q - p) ∧ (argRun (text.drop p)).length = q - p

/-- `DecVal` (R52): the decimal value, leading zeros ignored (92 D12), and the encoder's digits denote
their number. -/
def Obligations.CountIsDecimalValue : Prop :=
  (∀ d : Text, decVal d =
    ((List.range d.length).map (fun k => digitVal (d.getD k 0) * 10 ^ (d.length - 1 - k))).sum) ∧
  (∀ (k : Nat) (d : Text), decVal (List.replicate k ch0 ++ d) = decVal d) ∧
  (∀ n : Nat, decVal (encodeNat n) = n ∧ encodeNat n ≠ [] ∧ (encodeNat n).all isDigit = true)

/-- UnknownCommand (R129): at top level for a character that is none of the ten, in a chain for a
character that is none of the nine. That a block hands on its chain's only with its bracket and its count
in place is the check order of R132 (c), the spec's decision D6 (log 15). -/
def Obligations.UnknownCommandExactly : Prop :=
  (∀ (c : Byte) (s : Text), isCmdStart c = false → decodeCmd c s = .error .unknownCommand) ∧
  (∀ (c : Byte) (s : Text), decodeCmd c s = .error .unknownCommand ↔
    isCmdStart c = false ∨
      (c = chOpen ∧ s.contains chClose = true ∧ digitRun (afterClose s) ≠ [] ∧
        decodeChain (chainText s) = .error .unknownCommand)) ∧
  (∀ (c : Byte) (s : Text), decodeChainCmd c s = .error .unknownCommand ↔
    c ∉ [chN, chV, chB, chX, chA, chO, chT, chS, chI])

/-- DisallowedInBlock (R128): for `t`, `s`, `i` at a chain command position, on the character itself,
whatever follows it. -/
def Obligations.DisallowedInBlockExactly : Prop :=
  (∀ (c : Byte) (s : Text), decodeChainCmd c s = .error .disallowedInBlock ↔
    c = chT ∨ c = chS ∨ c = chI) ∧
  (∀ (chain : List ChainCmd) (c : Byte) (s : Text), c = chT ∨ c = chS ∨ c = chI →
    decodeChain (encodeChain chain ++ c :: s) = .error .disallowedInBlock)

/-- MismatchedBrackets (R126): exactly at a `[` with no `]` anywhere after it; a `]` without a `[` is
UnknownCommand. -/
def Obligations.MismatchedBracketsExactly : Prop :=
  (∀ (text : Text) (p : Nat), decode text p = .bad .mismatchedBrackets ↔
    text[p]? = some chOpen ∧ ∀ k, p < k → text[k]? ≠ some chClose) ∧
  (∀ (text : Text) (p : Nat), text[p]? = some chClose → decode text p = .bad .unknownCommand)

/-- MissingBlockCount (R127): exactly at a `[` whose first following `]` is not directly followed by a
digit. -/
def Obligations.MissingBlockCountExactly : Prop :=
  ∀ (text : Text) (p : Nat), decode text p = .bad .missingBlockCount ↔
    text[p]? = some chOpen ∧ ∃ k, p < k ∧ text[k]? = some chClose ∧
      (∀ j, p < j → j < k → text[j]? ≠ some chClose) ∧
      ¬ ∃ c, text[k + 1]? = some c ∧ isDigit c = true

/-- InvalidArgument (R124), format by format: the exact condition for each of the ten command characters
and for the chain's `x a o`; no other character raises it. The halves about two or more `:` and about a
count in a chain are the spec's decisions D8 and D9; that a block hands on its chain's only with its
bracket and its count in place is D6 (log 15). -/
def Obligations.InvalidArgumentExactly : Prop :=
  (∀ (c : Byte) (s : Text), c = chT ∨ c = chS ∨ c = chN ∨ c = chV →
    (decodeCmd c s = .error .invalidArgument ↔ ¬ ∃ d r, s = d :: r ∧ isDigit d = true)) ∧
  (∀ s : Text, decodeCmd chB s = .error .invalidArgument ↔
    (¬ ∃ d r, s = d :: r ∧ isDigit d = true) ∨ decVal (digitRun s) % 8 ≠ 0) ∧
  (∀ s : Text, decodeCmd chI s = .error .invalidArgument ↔ ∃ c ∈ argRun s, isBin c = false) ∧
  (∀ (c : Byte) (s : Text), c = chX ∨ c = chA ∨ c = chO →
    (decodeCmd c s = .error .invalidArgument ↔
      (argRun s).count chColon ≠ 1 ∨ beforeColon (argRun s) = [] ∨
        ∃ d ∈ beforeColon (argRun s), isDigit d = false)) ∧
  (∀ (c : Byte) (s : Text), c = chX ∨ c = chA ∨ c = chO →
    (decodeChainCmd c s = .error .invalidArgument ↔
      (argRun s).count chColon ≠ 1 ∨ beforeColon (argRun s) ≠ [])) ∧
  (∀ s : Text, decodeCmd chOpen s = .error .invalidArgument ↔
    s.contains chClose = true ∧ digitRun (afterClose s) ≠ [] ∧
      decodeChain (chainText s) = .error .invalidArgument) ∧
  (∀ (c : Byte) (s : Text), isCmdStart c = false → decodeCmd c s ≠ .error .invalidArgument) ∧
  (∀ (c : Byte) (s : Text), c ∉ [chX, chA, chO] → decodeChainCmd c s ≠ .error .invalidArgument)

/-- InvalidPattern (R77, R125; the kind is the spec's decision D7): raised for an empty or non-binary
pattern text and for nothing else, and after the other checks of the same command; a good text gives
the pattern of its bits. -/
def Obligations.InvalidPatternExactly : Prop :=
  (∀ text : Text, makePattern text = .error .invalidPattern ↔
    text = [] ∨ ∃ c ∈ text, isBin c = false) ∧
  (∀ (text : Text) (k : ErrorKind), makePattern text = .error k → k = .invalidPattern) ∧
  (∀ (text : Text) (p : Pattern), makePattern text = .ok p → p.bits = bitsOf text) ∧
  (∀ (c : Byte) (s : Text), c = chX ∨ c = chA ∨ c = chO →
    (decodeCmd c s = .error .invalidPattern ↔
      (argRun s).count chColon = 1 ∧ beforeColon (argRun s) ≠ [] ∧
        (∀ d ∈ beforeColon (argRun s), isDigit d = true) ∧
        makePattern (afterColon (argRun s)) = .error .invalidPattern)) ∧
  (∀ (c : Byte) (s : Text), c = chX ∨ c = chA ∨ c = chO →
    (decodeChainCmd c s = .error .invalidPattern ↔
      (argRun s).count chColon = 1 ∧ beforeColon (argRun s) = [] ∧
        makePattern (afterColon (argRun s)) = .error .invalidPattern))

/-- "the first error encountered, aborting the remaining chain" (R112, R132): after any good chain, an
error at a chain command position is the chain's error, whatever follows. After a logical command the
position is one only if the character ends its argument run. A block whose bracket and count are in place
(checked first: the spec's decision D6, log 15) hands on its chain's error, whichever kind it is, and
raises nothing else (R61, R132 (c)). -/
def Obligations.FirstChainErrorWins : Prop :=
  (∀ (chain : List ChainCmd) (c : Byte) (s : Text) (k : ErrorKind),
    isCmdStart c = true ∨ (∀ op p, chain.getLast? ≠ some (.logical op p)) →
    decodeChainCmd c s = .error k → decodeChain (encodeChain chain ++ c :: s) = .error k) ∧
  (∀ (s : Text) (k : ErrorKind), s.contains chClose = true → digitRun (afterClose s) ≠ [] →
    (decodeCmd chOpen s = .error k ↔ decodeChain (chainText s) = .error k))

/-! ### The datapath units (40, 41, 43 to 46) -/

/-- `pack_to_bits` (R71): its length and every bit of its result. -/
def Obligations.PackToBitsFormula : Prop :=
  ∀ B : Bytes, (packToBits B).length = 8 * B.length ∧
    ∀ i, i < 8 * B.length →
      (packToBits B)[i]? = some (decide ((B.getD (i / 8) 0).toNat / 2 ^ (7 - i % 8) % 2 = 1))

/-- `unpack_from_bits` (R72): its length, the value of every byte, and the pad bits of the last one. -/
def Obligations.UnpackFromBitsFormula : Prop :=
  ∀ S : Bits, (unpackFromBits S).length = (S.length + 7) / 8 ∧
    (∀ j, j < (S.length + 7) / 8 →
      ((unpackFromBits S).getD j 0).toNat =
        ((List.range 8).map (fun k => (S.getD (8 * j + k) false).toNat * 2 ^ (7 - k))).sum) ∧
    (∀ i, i < S.length → ((unpackFromBits S).getD (i / 8) 0).getLsbD (7 - i % 8) = S.getD i false) ∧
    (∀ i, S.length ≤ i → i / 8 < (S.length + 7) / 8 →
      ((unpackFromBits S).getD (i / 8) 0).getLsbD (7 - i % 8) = false)

/-- The round trip from bytes (R73). -/
def Obligations.UnpackOfPackIsIdentity : Prop :=
  ∀ B : Bytes, unpackFromBits (packToBits B) = B

/-- No round trip from bits (R74; 90 C8 says how its sentence is read): zero bits are added up to a whole
number of bytes, so a length that is not a multiple of 8 does not come back. -/
def Obligations.PackOfUnpackAddsPadZeros : Prop :=
  ∀ S : Bits,
    packToBits (unpackFromBits S) = S ++ List.replicate (8 * ceil8 S.length - S.length) false ∧
    (S.length % 8 ≠ 0 → packToBits (unpackFromBits S) ≠ S)

/-- `BREV` (R101): the whole chunk reversed as one unit. -/
def Obligations.BitReversalFormula : Prop :=
  ∀ w : Bits, (brev w).length = w.length ∧
    ∀ j, j < w.length → (brev w)[j]? = w[w.length - 1 - j]?

/-- `BSWAP` (R103): whole bytes in reverse order, bit order inside a byte kept, the trailing partial byte
left last. -/
def Obligations.ByteSwapFormula : Prop :=
  ∀ w : Bits, (bswap w).length = w.length ∧
    (∀ j, j < 8 * (w.length / 8) → (bswap w)[j]? = w[8 * (w.length / 8 - 1 - j / 8) + j % 8]?) ∧
    (∀ j, 8 * (w.length / 8) ≤ j → j < w.length → (bswap w)[j]? = w[j]?)

/-- `MASK` (R106; the truth table is from general knowledge, 93 G2) and `bit_at` (R78): bit `j` of the
chunk meets pattern bit `j mod L`, counted from the start of the chunk. -/
def Obligations.MaskFormula : Prop :=
  ∀ (w : Bits) (P : Pattern),
    (∀ op, (mask op w P).length = w.length) ∧ 1 ≤ P.bits.length ∧
    ∀ (j : Nat) (d : Bit), w[j]? = some d → ∃ p, P.bits[j % P.bits.length]? = some p ∧ bitAt P j = p ∧
      (mask .xor w P)[j]? = some (d != p) ∧
      (mask .and w P)[j]? = some (d && p) ∧
      (mask .or w P)[j]? = some (d || p)

/-- The properties R100, R101, R103 and R106 derive from the units' definitions, the pairs of R120 that
always commute (all marked derived in the spec), and for each pair of R120 that does not, a chunk and
patterns that tell the two orders apart. -/
def Obligations.UnitAlgebraAndChainOrder : Prop :=
  ((∀ w, inv (inv w) = w) ∧ (∀ w, brev (brev w) = w) ∧ (∀ w, bswap (bswap w) = w) ∧
    (∀ w, w.length < 16 → bswap w = w) ∧
    (∀ w d, brev (w ++ d) = brev d ++ brev w) ∧
    (∀ w P, mask .xor (mask .xor w P) P = w) ∧
    (∀ w P, mask .and (mask .and w P) P = mask .and w P) ∧
    (∀ w P, mask .or (mask .or w P) P = mask .or w P)) ∧
  ((∀ w, brev (inv w) = inv (brev w)) ∧ (∀ w, bswap (inv w) = inv (bswap w)) ∧
    (∀ w, w.length % 8 = 0 → brev (bswap w) = bswap (brev w)) ∧
    (∀ w P, inv (mask .xor w P) = mask .xor (inv w) P) ∧
    (∀ w P Q, mask .xor (mask .xor w P) Q = mask .xor (mask .xor w Q) P)) ∧
  ((∃ w P, inv (mask .and w P) ≠ mask .and (inv w) P) ∧ (∃ w P, inv (mask .or w P) ≠ mask .or (inv w) P) ∧
    (∃ w, brev (bswap w) ≠ bswap (brev w)) ∧
    (∀ op, (∃ w P, brev (mask op w P) ≠ mask op (brev w) P) ∧ ∃ w P, bswap (mask op w P) ≠ mask op (bswap w) P) ∧
    (∃ w P Q, mask .and (mask .or w Q) P ≠ mask .or (mask .and w P) Q))

/-! ### The commands (43 to 46): each completes, with exactly this next state -/

/-- `t` Take(n) (R97): its encoding, its one error, and its effect in every window. -/
def Obligations.TakeRule : Prop :=
  (∀ d rest : Text, d ≠ [] → d.all isDigit = true → (∀ c r, rest = c :: r → isDigit c = false) →
    decodeCmd chT (d ++ rest) = .ok (.take (decVal d), d.length)) ∧
  (∀ s : Text, (∀ c r, s = c :: r → isDigit c = false) → decodeCmd chT s = .error .invalidArgument) ∧
  (∀ (n : Nat) (s : State), windowOk s →
    exec (.take n) s = .next { s with
      out := s.out ++ (s.inbits.drop s.pos).take (min n (s.re - s.pos))
      pos := s.pos + min n (s.re - s.pos) })

/-- `s` Skip(n) (R98): its encoding, its one error, and its effect in every state: no output, and the
bits are not read. -/
def Obligations.SkipRule : Prop :=
  (∀ d rest : Text, d ≠ [] → d.all isDigit = true → (∀ c r, rest = c :: r → isDigit c = false) →
    decodeCmd chS (d ++ rest) = .ok (.skip (decVal d), d.length)) ∧
  (∀ s : Text, (∀ c r, s = c :: r → isDigit c = false) → decodeCmd chS s = .error .invalidArgument) ∧
  (∀ (n : Nat) (s : State), exec (.skip n) s = .next { s with pos := s.pos + min n (s.re - s.pos) })

/-- `i` Insert(lit) (R99): its encoding, its one error, and its effect in every state: the whole literal,
whatever is left of the window. That an empty literal is accepted is the spec's decision D10. -/
def Obligations.InsertRule : Prop :=
  (∀ (lit : Bits) (rest : Text), (∀ c r, rest = c :: r → isCmdStart c = true) →
    decodeCmd chI (encodeBits lit ++ rest) = .ok (.insert lit, lit.length)) ∧
  (∀ s : Text, (∃ c ∈ argRun s, isBin c = false) → decodeCmd chI s = .error .invalidArgument) ∧
  (∀ (lit : Bits) (s : State), exec (.insert lit) s = .next { s with out := s.out ++ lit })

/-- `n` Invert(n) (R100): its encoding, its one error, and its effect in every window. -/
def Obligations.InvertRule : Prop :=
  (∀ w : Bits, (inv w).length = w.length ∧ ∀ (j : Nat) (d : Bit), w[j]? = some d → (inv w)[j]? = some (!d)) ∧
  (∀ d rest : Text, d ≠ [] → d.all isDigit = true → (∀ c r, rest = c :: r → isDigit c = false) →
    decodeCmd chN (d ++ rest) = .ok (.invert (decVal d), d.length)) ∧
  (∀ s : Text, (∀ c r, s = c :: r → isDigit c = false) → decodeCmd chN s = .error .invalidArgument) ∧
  (∀ (n : Nat) (s : State), windowOk s →
    exec (.invert n) s = .next { s with
      out := s.out ++ inv ((s.inbits.drop s.pos).take (min n (s.re - s.pos)))
      pos := s.pos + min n (s.re - s.pos) })

/-- `v` ReverseBits(n) (R102): its encoding, its one error, and its effect in every window: the reversal
is over the bits actually read. -/
def Obligations.ReverseBitsRule : Prop :=
  (∀ d rest : Text, d ≠ [] → d.all isDigit = true → (∀ c r, rest = c :: r → isDigit c = false) →
    decodeCmd chV (d ++ rest) = .ok (.reverseBits (decVal d), d.length)) ∧
  (∀ s : Text, (∀ c r, s = c :: r → isDigit c = false) → decodeCmd chV s = .error .invalidArgument) ∧
  (∀ (n : Nat) (s : State), windowOk s →
    exec (.reverseBits n) s = .next { s with
      out := s.out ++ brev ((s.inbits.drop s.pos).take (min n (s.re - s.pos)))
      pos := s.pos + min n (s.re - s.pos) })

/-- `b` ByteSwap(n) (R104): its encoding, its two errors (the multiple-of-8 test is on the written count,
at decode), and its effect in every window: the swap is over the bits actually read. -/
def Obligations.ByteSwapRule : Prop :=
  (∀ d rest : Text, d ≠ [] → d.all isDigit = true → (∀ c r, rest = c :: r → isDigit c = false) →
    (decVal d % 8 = 0 → decodeCmd chB (d ++ rest) = .ok (.byteSwap (decVal d), d.length)) ∧
    (decVal d % 8 ≠ 0 → decodeCmd chB (d ++ rest) = .error .invalidArgument)) ∧
  (∀ s : Text, (∀ c r, s = c :: r → isDigit c = false) → decodeCmd chB s = .error .invalidArgument) ∧
  (∀ (n : Nat) (s : State), windowOk s →
    exec (.byteSwap n) s = .next { s with
      out := s.out ++ bswap ((s.inbits.drop s.pos).take (min n (s.re - s.pos)))
      pos := s.pos + min n (s.re - s.pos) })

/-- `x a o` Logical (R107, R108, R109, R56): their encoding and their effect in every window. -/
def Obligations.LogicalRules : Prop :=
  (∀ (d rest : Text) (P : Pattern), d ≠ [] → d.all isDigit = true →
    (∀ c r, rest = c :: r → isCmdStart c = true) →
    decodeCmd chX (d ++ chColon :: encodeBits P.bits ++ rest) =
      .ok (.logicXor (decVal d) P, d.length + 1 + P.bits.length) ∧
    decodeCmd chA (d ++ chColon :: encodeBits P.bits ++ rest) =
      .ok (.logicAnd (decVal d) P, d.length + 1 + P.bits.length) ∧
    decodeCmd chO (d ++ chColon :: encodeBits P.bits ++ rest) =
      .ok (.logicOr (decVal d) P, d.length + 1 + P.bits.length)) ∧
  (∀ (n : Nat) (P : Pattern) (s : State), windowOk s →
    exec (.logicXor n P) s = .next { s with
      out := s.out ++ mask .xor ((s.inbits.drop s.pos).take (min n (s.re - s.pos))) P
      pos := s.pos + min n (s.re - s.pos) } ∧
    exec (.logicAnd n P) s = .next { s with
      out := s.out ++ mask .and ((s.inbits.drop s.pos).take (min n (s.re - s.pos))) P
      pos := s.pos + min n (s.re - s.pos) } ∧
    exec (.logicOr n P) s = .next { s with
      out := s.out ++ mask .or ((s.inbits.drop s.pos).take (min n (s.re - s.pos))) P
      pos := s.pos + min n (s.re - s.pos) })

/-- `[` Block(chain, n) (R111, R57): its encoding and its effect in every window: one read, the chain on
the working copy, one append, one advance. An empty chain is the spec's decision D11. No block is open
before or after. -/
def Obligations.BlockRule : Prop :=
  (∀ (chain : List ChainCmd) (d rest : Text), d ≠ [] → d.all isDigit = true →
    (∀ c r, rest = c :: r → isDigit c = false) →
    decodeCmd chOpen (encodeChain chain ++ chClose :: d ++ rest) =
      .ok (.block chain (decVal d), (encodeChain chain).length + 1 + d.length)) ∧
  (∀ (chain : List ChainCmd) (n : Nat) (s : State), windowOk s →
    exec (.block chain n) s = .next { s with
      out := s.out ++ applyChain chain ((s.inbits.drop s.pos).take (min n (s.re - s.pos)))
      pos := s.pos + min n (s.re - s.pos)
      work := [] })

/-- `ApplyChain` (R112): the meanings of the chain's commands, run first to last on the working copy, are
the fold of the units over it; the length is kept, nothing else is touched and nothing can fail.
That each command of a chain means what its own row of the opcode table means is the model's reading of
R113 to R118 (DEDUCED, log 7). -/
def Obligations.ChainAppliesInTextOrder : Prop :=
  (∀ (chain : List ChainCmd) (s : State),
    runChain chain s = .next { s with work := applyChain chain s.work } ∧
    (applyChain chain s.work).length = s.work.length) ∧
  (∀ (k : ChainCmd) (ks : List ChainCmd) (w : Bits), applyChain (k :: ks) w = applyChain ks (apply1 k w)) ∧
  (∀ w : Bits, applyChain [] w = w ∧ apply1 .invert w = inv w ∧ apply1 .reverseBits w = brev w ∧
    apply1 .byteSwap w = bswap w ∧ ∀ op P, apply1 (.logical op P) w = mask op w P) ∧
  (∀ (k : ChainCmd) (s : State), exec k.toInstr s = execChainCmd k s)

/-- chain `n v b` (R113, R114, R115) and `x a o` (R116, R117, R118): their encodings, `n v b` without any
argument or error and `x a o` with nothing before the `:` (92 D9), and their effects on the whole working
copy in every state; no multiple-of-8 check for `b`. -/
def Obligations.ChainCommandRules : Prop :=
  (∀ s : Text, decodeChainCmd chN s = .ok (.invert, 0) ∧ decodeChainCmd chV s = .ok (.reverseBits, 0) ∧
    decodeChainCmd chB s = .ok (.byteSwap, 0)) ∧
  (∀ (P : Pattern) (rest : Text), (∀ c r, rest = c :: r → isCmdStart c = true) →
    decodeChainCmd chX (chColon :: encodeBits P.bits ++ rest) = .ok (.logical .xor P, 1 + P.bits.length) ∧
    decodeChainCmd chA (chColon :: encodeBits P.bits ++ rest) = .ok (.logical .and P, 1 + P.bits.length) ∧
    decodeChainCmd chO (chColon :: encodeBits P.bits ++ rest) = .ok (.logical .or P, 1 + P.bits.length)) ∧
  (∀ s : State, exec .chainInvert s = .next { s with work := inv s.work } ∧
    exec .chainReverseBits s = .next { s with work := brev s.work } ∧
    exec .chainByteSwap s = .next { s with work := bswap s.work } ∧
    ∀ P, exec (.chainXor P) s = .next { s with work := mask .xor s.work P } ∧
      exec (.chainAnd P) s = .next { s with work := mask .and s.work P } ∧
      exec (.chainOr P) s = .next { s with work := mask .or s.work P })

/-- `Execute` (R88): for every top-level command in every window, the effects and advances of the
per-command table; and no command raises, the status and the error code are as before. -/
def Obligations.ExecuteFollowsTheCommandTable : Prop :=
  (∀ (i : Instr) (s : State), i.topLevel = true → windowOk s → s.work = [] →
    exec i s = .next { s with
      out := s.out ++ appended i ((s.inbits.drop s.pos).take (moved i (s.re - s.pos)))
      pos := s.pos + moved i (s.re - s.pos) }) ∧
  (∀ (i : Instr) (s : State), windowOk s → ∃ t, exec i s = .next t ∧ t.status = s.status ∧ t.err = s.err)

/-- The frame of all sixteen commands: whatever the command, the inputs, the window, the text position,
the pass, the result registers and every bit of the input space are unchanged; OUT keeps every bit it
had and grows only at its end, by what the command appends; Skip and the chain commands append nothing;
Insert and the chain commands do not move the cursor; only a block and the chain commands touch W. A
command that gives no next state stops with the model's fault for a read outside the window (log 9). -/
def Obligations.CommandFrame : Prop :=
  (∀ (i : Instr) (s : State), (∃ t, exec i s = .next t) ∨ exec i s = .fault .readOutsideWindow) ∧
  ∀ (i : Instr) (s t : State), exec i s = .next t →
    (t.inb = s.inb ∧ t.prog = s.prog ∧ t.argStart = s.argStart ∧ t.argEnd = s.argEnd ∧
      t.verbose = s.verbose ∧ t.verboseOnce = s.verboseOnce ∧ t.status = s.status ∧ t.err = s.err ∧
      t.outb = s.outb ∧ t.outNbytes = s.outNbytes ∧ t.rs = s.rs ∧ t.re = s.re ∧ t.tp = s.tp ∧
      t.pass = s.pass ∧ t.trace = s.trace ∧ t.hostIn = s.hostIn ∧ t.freeCtr = s.freeCtr) ∧
    (∀ a m, inputSlice t a m = inputSlice s a m) ∧
    (∀ k, k < s.out.length → t.out[k]? = s.out[k]?) ∧
    t.out = s.out ++ appended i ((s.inbits.drop s.pos).take (moved i (s.re - s.pos))) ∧
    t.pos = s.pos + moved i (s.re - s.pos) ∧
    (i.topLevel = true → (∀ chain n, i ≠ .block chain n) → t.work = s.work) ∧
    (∀ chain n, i = .block chain n → t.work = [])

/-! ### The sequencer (42_sequencer.md) -/

/-- A step runs the decoded command: with a bit left in the window, the trace record of R136 (92 D16,
log 10), then `Execute`, then `tp` at the position `Decode` returned (R86, R89 (a)). -/
def Obligations.StepRunsTheDecodedCommand : Prop :=
  ∀ (s : State) (i : Instr) (q : Nat), inRun s → s.pos < s.re → decode s.prog s.tp = .command i q →
    step s =
      match exec i { s with
        trace := s.trace ++ if s.verbose || (s.verboseOnce && s.pass == 0) then [⟨s.pass, i⟩] else [] } with
      | .next t => .next { t with tp := q }
      | .fault f => .fault f
      | .refused r => .refused r

/-- Raising an error (R130; the result registers are 92 D21): when the command at `tp` is malformed the
run ends with that kind's code (R122, 92 D15), OUT discarded, the inputs unchanged. At the start of a
pass the loop condition comes first (R84). That pos, tp, pass, RS, RE and the trace keep their values then
is the model's choice (log 12): R130 says that they cannot be read. -/
def Obligations.StepRaisesTheDecodeError : Prop :=
  ∀ (s : State) (k : ErrorKind), inRun s → (s.tp = 0 → s.pos < s.re) → decode s.prog s.tp = .bad k →
    step s = .next { s with
      status := .doneErr, err := errorCode k, outb := [], outNbytes := 0, out := [] } ∧
    (errorCode .rangeError = 1 ∧ errorCode .invalidArgument = 2 ∧ errorCode .invalidPattern = 3 ∧
      errorCode .mismatchedBrackets = 4 ∧ errorCode .missingBlockCount = 5 ∧
      errorCode .disallowedInBlock = 6 ∧ errorCode .unknownCommand = 7)

/-- The end of a pass (R85, R86; the order of decode and test is 92 D5): at the end of the text, or when
the window is used up and the command at `tp` decodes, the pass is counted; then either `tp <- 0`, or
the run is over. The model's choices: the end of the pass and the end of the run are one step (log 1), and
OUT, pos, tp, RS, RE and the trace keep their values after the run (log 12). -/
def Obligations.StepEndsThePass : Prop :=
  ∀ s : State, inRun s → s.tp ≠ 0 → s.prog ≠ [] →
    (s.prog.length ≤ s.tp ∨ (s.re ≤ s.pos ∧ ∃ i q, decode s.prog s.tp = .command i q)) →
    (s.pos < s.re → step s = .next { s with pass := s.pass + 1, tp := 0 }) ∧
    (s.re ≤ s.pos → step s = .next { s with
      pass := s.pass + 1, status := .doneOk, err := 0
      outb := unpackFromBits s.out, outNbytes := (s.out.length + 7) / 8 })

/-- The successful end (R84, R90): at the start of a pass, with the window used up or the program empty,
the result is `Ok(unpack_from_bits(OUT))`. That everything else keeps its value after the run is the
model's choice (log 12). -/
def Obligations.ExhaustedRunReportsItsOutput : Prop :=
  ∀ s : State, inRun s → s.tp = 0 → s.re ≤ s.pos ∨ s.prog = [] →
    step s = .next { s with
      status := .doneOk, err := 0, outb := unpackFromBits s.out, outNbytes := (s.out.length + 7) / 8 }

/-- Range normalisation (R82; a negative start is 92 D22): the window it gives, and when it fails. -/
def Obligations.RangeNormalisation : Prop :=
  ∀ (a e : Int) (len : Nat),
    (e ≤ 0 ∨ (len : Int) < e → 0 ≤ a → a ≤ len → normaliseRange a e len = .ok (a.toNat, len)) ∧
    (0 < e → e ≤ len → 0 ≤ a → a ≤ e → normaliseRange a e len = .ok (a.toNat, e.toNat)) ∧
    (a < 0 ∨ (len : Int) < a → normaliseRange a e len = .error .rangeError) ∧
    (0 < e → e ≤ len → e < a → normaliseRange a e len = .error .rangeError)

/-- GO (R29, R81, R139; STATUS and ERR are 92 D1 and D21): with a good range the run state takes the
values of R29 and the inputs stay; what OUTB and OUT_NBYTES hold until the end is open (93 U10, log 6).
The emptied trace and W are the model's own (log 10, log 7). -/
def Obligations.GoTakesTheStartValues : Prop :=
  ∀ (s : State) (rest : List HostReq) (a b : Nat), s.hostIn = .go :: rest → s.status ≠ .busy →
    normaliseRange s.argStart s.argEnd (8 * s.inb.length) = .ok (a, b) →
    ∃ t, step s = .next t ∧ t.status = .busy ∧ t.err = 0 ∧ t.rs = a ∧ t.re = b ∧ t.pos = a ∧ t.out = [] ∧
      t.tp = 0 ∧ t.pass = 0 ∧ t.work = [] ∧ t.trace = [] ∧ t.hostIn = rest ∧ windowOk t ∧
      t.inb = s.inb ∧ t.prog = s.prog ∧ t.argStart = s.argStart ∧ t.argEnd = s.argEnd ∧
      t.verbose = s.verbose ∧ t.verboseOnce = s.verboseOnce ∧
      (engineState t = .running ↔ a < b ∧ s.prog ≠ [])

/-- RangeError (R123): from range normalisation in exactly these two cases, before any program character
or input bit is read, and never once the run has started. GO then ends at once with the outcome of R130: the
code and no output (92 D15, D21), OUT discarded, the six inputs unchanged. -/
def Obligations.RangeErrorExactly : Prop :=
  (∀ (a e : Int) (len : Nat), normaliseRange a e len = .error .rangeError ↔
    (a < 0 ∨ (len : Int) < a) ∨ rangeEnd e len < a) ∧
  (∀ (a e : Int) (len : Nat) (k : ErrorKind), normaliseRange a e len = .error k → k = .rangeError) ∧
  (∀ (s : State) (rest : List HostReq), s.hostIn = .go :: rest → s.status ≠ .busy →
    normaliseRange s.argStart s.argEnd (8 * s.inb.length) = .error .rangeError →
    ∃ t, step s = .next t ∧ t.status = .doneErr ∧ t.err = 1 ∧ t.outb = [] ∧ t.outNbytes = 0 ∧ t.out = [] ∧
      t.inb = s.inb ∧ t.prog = s.prog ∧ t.argStart = s.argStart ∧ t.argEnd = s.argEnd ∧
      t.verbose = s.verbose ∧ t.verboseOnce = s.verboseOnce ∧ t.hostIn = rest) ∧
  (∀ s t : State, inRun s → s.err = 0 → step s = .next t → t.err ≠ 1)

/-- The cursor (R20): it starts at RS, every command adds exactly its clamped count (Insert nothing), and
no step of a run lets it fall or leave the window. -/
def Obligations.CursorStaysInTheWindow : Prop :=
  (∀ (a b : Nat) (s : State), (beginRun a b s).pos = a ∧ (beginRun a b s).rs = a) ∧
  (∀ (i : Instr) (s t : State), exec i s = .next t → t.pos = s.pos + moved i (s.re - s.pos)) ∧
  (∀ s t : State, inRun s → windowOk s → step s = .next t →
    t.rs = s.rs ∧ t.re = s.re ∧ s.pos ≤ t.pos ∧ t.rs ≤ t.pos ∧ t.pos ≤ t.re)

/-- OUT (R33): appending any bits puts them after the bits there; no step of a run that is not an error
changes or drops a bit once appended; and on success the result is OUT in bytes. -/
def Obligations.OutputIsAppendOnly : Prop :=
  (∀ (v : Bits) (s : State), outAppend v s = .next { s with out := s.out ++ v }) ∧
  (∀ s t : State, inRun s → step s = .next t → t.status ≠ .doneErr →
    ∀ k, k < s.out.length → t.out[k]? = s.out[k]?) ∧
  (∀ s t : State, inRun s → step s = .next t → t.status = .doneOk → t.outb = unpackFromBits t.out)

/-- During a run nothing writes the input space, the program space, the range or the flags (R31, R45). -/
def Obligations.RunsNeverWriteTheirInputs : Prop :=
  ∀ (k : Nat) (s t : State), inRun s → runSteps k s = .next t →
    t.inb = s.inb ∧ t.prog = s.prog ∧ t.argStart = s.argStart ∧ t.argEnd = s.argEnd ∧
      t.verbose = s.verbose ∧ t.verboseOnce = s.verboseOnce ∧ t.rs = s.rs ∧ t.re = s.re

/-- The trace (R136; its content is 92 D16, log 10): a step of a run appends the record of the command it
executes when VERBOSE is set, or VERBOSE_ONCE in pass 0, and otherwise nothing. -/
def Obligations.TraceRecordsExecutedCommands : Prop :=
  ∀ s t : State, inRun s → step s = .next t →
    (∀ i q, s.pos < s.re → decode s.prog s.tp = .command i q →
      (s.verbose = true ∨ (s.verboseOnce = true ∧ s.pass = 0) → t.trace = s.trace ++ [⟨s.pass, i⟩]) ∧
      (s.verbose = false → (s.verboseOnce = false ∨ s.pass ≠ 0) → t.trace = s.trace)) ∧
    ((s.re ≤ s.pos ∨ ∀ i q, decode s.prog s.tp ≠ .command i q) → t.trace = s.trace)

/-! ### The host interface and reset (10_state.md R27, R30; 70_reset_and_hazards.md) -/

/-- A host write while the unit is not BUSY writes its register and nothing else; a write or GO while it
is BUSY is refused (R27, R141; 92 D1, D18; taking one pending action per step is log 2). -/
def Obligations.HostWritesOnlyWhileNotBusy : Prop :=
  (∀ (s : State) (rest : List HostReq) (b : Bytes) (x : Text) (n : Int) (v : Bit), s.status ≠ .busy →
    step { s with hostIn := .writeInb b :: rest } = .next { s with inb := b, hostIn := rest } ∧
    step { s with hostIn := .writeProg x :: rest } = .next { s with prog := x, hostIn := rest } ∧
    step { s with hostIn := .writeArgStart n :: rest } = .next { s with argStart := n, hostIn := rest } ∧
    step { s with hostIn := .writeArgEnd n :: rest } = .next { s with argEnd := n, hostIn := rest } ∧
    step { s with hostIn := .writeVerbose v :: rest } = .next { s with verbose := v, hostIn := rest } ∧
    step { s with hostIn := .writeVerboseOnce v :: rest } = .next { s with verboseOnce := v, hostIn := rest }) ∧
  (∀ (s : State) (a : HostReq) (rest : List HostReq), s.status = .busy → s.hostIn = a :: rest → a ≠ .reset →
    step s = .refused .hostAccessWhileBusy)

/-- Reset (R140, R30; 92 D20): the state after reset, and the state after a hardware reset from every
state, BUSY or not, is IDLE with no error and no output; nothing is said of what R30 leaves unspecified. -/
def Obligations.ResetValuesFromEveryState : Prop :=
  (State.reset.status = .idle ∧ State.reset.err = 0 ∧ State.reset.outb = [] ∧ State.reset.outNbytes = 0) ∧
  ∀ (s : State) (rest : List HostReq), s.hostIn = .reset :: rest →
    ∃ t, step s = .next t ∧ t.status = .idle ∧ t.err = 0 ∧ t.outb = [] ∧ t.outNbytes = 0 ∧ t.hostIn = rest

/-- Between invocations a step with no host action pending changes nothing (the model's choice, log 11),
so the result registers hold until the next GO or reset (92 D21). -/
def Obligations.ResultsHoldBetweenRuns : Prop :=
  ∀ (k : Nat) (s : State), s.hostIn = [] → s.status ≠ .busy → runSteps k s = .next s

/-! ### Whole-machine statements -/

/-- The invariant holds after reset. -/
def Obligations.ResetHasTheInvariant : Prop := UnitInv State.reset

/-- Every step keeps the invariant: the window and cursor rule (R18, R20), the text position inside the
text (R21), no block open between commands (R26), and the result registers as R90, R130 and R30 say. -/
def Obligations.EveryStepKeepsTheInvariant : Prop :=
  ∀ s t : State, UnitInv s → step s = .next t → UnitInv t

/-- A run never stops with a fault or a refusal: from every state with the invariant, any number of steps
gives a next state (R121: an error is an outcome, not a stop). -/
def Obligations.RunsNeverStop : Prop :=
  ∀ (k : Nat) (s : State), UnitInv s → inRun s → ∃ t, runSteps k s = .next t ∧ UnitInv t

/-- Termination (R91, marked derived there): a well-formed program with a count of at least 1 ends, with
`Ok` and the cursor at RE, after at most `RE - pos` further passes. That the cursor and the pass index can
be looked at after the run is the model's choice (log 12), and so is what a step is (log 1). -/
def Obligations.ProgramsThatConsumeTerminate : Prop :=
  ∀ (s : State) (cmds : List Instr), UnitInv s → inRun s → s.tp = 0 → commandsOf s.prog = .ok cmds →
    (∃ i ∈ cmds, ∃ n, i.count? = some n ∧ 1 ≤ n) →
    ∃ k t, k ≤ (s.re - s.pos) * (cmds.length + 1) + 1 ∧ runSteps k s = .next t ∧ t.status = .doneOk ∧
      t.pos = s.re ∧ t.pass ≤ s.pass + (s.re - s.pos)

/-- Runs that never end (R91, R142, 92 D17): a well-formed nonempty program without a count of at least 1
on a nonempty window is BUSY after any number of steps, its cursor where it was. -/
def Obligations.ProgramsWithoutProgressNeverEnd : Prop :=
  ∀ (s : State) (cmds : List Instr), UnitInv s → inRun s → s.tp = 0 → s.pos < s.re →
    commandsOf s.prog = .ok cmds → cmds ≠ [] → (∀ i ∈ cmds, ∀ n, i.count? = some n → n = 0) →
    ∀ k, ∃ t, runSteps k s = .next t ∧ t.status = .busy ∧ t.pos = s.pos

/-- Parse-once equivalence (R95): for a well-formed program, when the replay of its decoded commands ends
with some output bits, the machine ends with those bits in OUT and their bytes as its result. That OUT
keeps its bits after the run is the model's choice (log 12). -/
def Obligations.RunIsTheParseOnceReplay : Prop :=
  ∀ (s : State) (cmds : List Instr) (fuel : Nat) (v : Bits), UnitInv s → inRun s → s.tp = 0 →
    commandsOf s.prog = .ok cmds → replay s.inbits s.re cmds fuel (s.pos, s.out) = some v →
    ∃ k t, runSteps k s = .next t ∧ t.status = .doneOk ∧ t.err = 0 ∧ t.out = v ∧ t.outb = unpackFromBits v ∧
      t.outNbytes = (v.length + 7) / 8

/-- The window is the protection (R37): input bits outside `[RS, RE)` cannot influence anything a run
does; two runs whose inputs agree inside the window agree in every other part of the state. -/
def Obligations.BitsOutsideTheWindowAreNeverRead : Prop :=
  ∀ (k : Nat) (s t : State) (b : Bytes), UnitInv s → inRun s → b.length = s.inb.length →
    (∀ i, s.rs ≤ i → i < s.re → (packToBits b)[i]? = s.inbits[i]?) →
    runSteps k s = .next t → runSteps k { s with inb := b } = .next { t with inb := b }

/-- Control does not depend on data (R89, marked derived there): whatever the values of the input bits,
the run takes the same course and emits the same number of bits. -/
def Obligations.ControlDoesNotDependOnData : Prop :=
  ∀ (k : Nat) (s t : State) (b : Bytes), UnitInv s → inRun s → b.length = s.inb.length →
    runSteps k s = .next t →
    ∃ u, runSteps k { s with inb := b } = .next u ∧ u.pos = t.pos ∧ u.tp = t.tp ∧ u.pass = t.pass ∧
      u.status = t.status ∧ u.err = t.err ∧ u.trace = t.trace ∧ u.out.length = t.out.length ∧
      u.outNbytes = t.outNbytes

/-- The diagnostic flags (R19): whatever they hold, everything but the trace is the same. -/
def Obligations.DiagnosticFlagsOnlyGateTheTrace : Prop :=
  ∀ (k : Nat) (s t : State) (v w : Bit), inRun s → runSteps k s = .next t →
    ∃ tr, runSteps k { s with verbose := v, verboseOnce := w } =
      .next { t with verbose := v, verboseOnce := w, trace := tr }

/-- Nothing survives an invocation (R28, R139): two units with the same six arguments, whatever else they
hold, give the same result at every step after GO. OUTB and OUT_NBYTES are compared where they mean
something (R25). That the traces agree rests on GO emptying the trace, the model's choice (log 10; 92 D16
puts claims about the trace out of scope). -/
def Obligations.SameArgumentsSameResult : Prop :=
  ∀ (k : Nat) (s u t : State), s.status ≠ .busy → u.status ≠ .busy → s.hostIn = [.go] → u.hostIn = [.go] →
    u.inb = s.inb → u.prog = s.prog → u.argStart = s.argStart → u.argEnd = s.argEnd →
    u.verbose = s.verbose → u.verboseOnce = s.verboseOnce →
    runSteps (k + 1) s = .next t →
    ∃ v, runSteps (k + 1) u = .next v ∧ v.status = t.status ∧ v.err = t.err ∧ v.trace = t.trace ∧
      (t.status = .doneOk → v.outb = t.outb ∧ v.outNbytes = t.outNbytes) ∧
      (t.status = .doneErr → v.outb = t.outb ∧ v.outNbytes = t.outNbytes)
end

