-- ==== Sys2Proof/Laws/Decode.lean ====
section
/-! SUPPORT. The small lemmas of the scanner and the encoder: what a run takes from a text, which
characters belong to which class, and what the encoder writes. -/

namespace Sys2Proof

/-! ### Runs -/

/-- A run takes exactly the good characters before the end or the first bad one. -/
theorem takeWhile_run {p : Byte → Bool} {a rest : Text} (ha : ∀ c ∈ a, p c = true)
    (hr : ∀ c r, rest = c :: r → p c = false) : (a ++ rest).takeWhile p = a := by
  rw [List.takeWhile_append_of_pos ha]
  cases rest with
  | nil => simp
  | cons c r => simp [hr c r rfl]

theorem dropWhile_run {p : Byte → Bool} {a rest : Text} (ha : ∀ c ∈ a, p c = true)
    (hr : ∀ c r, rest = c :: r → p c = false) : (a ++ rest).dropWhile p = rest := by
  rw [List.dropWhile_append_of_pos ha]
  cases rest with
  | nil => simp
  | cons c r => simp [hr c r rfl]

theorem digitRun_append {a rest : Text} (ha : a.all isDigit = true)
    (hr : ∀ c r, rest = c :: r → isDigit c = false) : digitRun (a ++ rest) = a :=
  takeWhile_run (by simpa using ha) hr

theorem argRun_append {a rest : Text} (ha : ∀ c ∈ a, isCmdStart c = false)
    (hr : ∀ c r, rest = c :: r → isCmdStart c = true) : argRun (a ++ rest) = a :=
  takeWhile_run (by simpa using ha) (by intro c r h; simp [hr c r h])

theorem digitRun_eq_nil {s : Text} : digitRun s = [] ↔ ¬ ∃ d r, s = d :: r ∧ isDigit d = true := by
  cases s with
  | nil => simp [digitRun]
  | cons c r => cases h : isDigit c <;> simp [digitRun, h]

theorem digitRun_length_le (s : Text) : (digitRun s).length ≤ s.length :=
  (List.takeWhile_prefix _).length_le

theorem argRun_length_le (s : Text) : (argRun s).length ≤ s.length :=
  (List.takeWhile_prefix _).length_le

theorem digitRun_all (s : Text) : (digitRun s).all isDigit = true := by
  simp only [digitRun, List.all_eq_true]
  exact fun c hc => List.mem_takeWhile_imp hc

/-! ### Character classes -/

theorem not_isDigit_of_isCmdStart {c : Byte} (h : isCmdStart c = true) : isDigit c = false := by
  revert c; decide

theorem not_isCmdStart_of_isDigit {c : Byte} (h : isDigit c = true) : isCmdStart c = false := by
  revert c; decide

theorem not_colon_of_isDigit {c : Byte} (h : isDigit c = true) : c ≠ chColon := by
  revert c; decide

theorem isDigit_of_isBin {c : Byte} (h : isBin c = true) : isDigit c = true := by
  revert c; decide

@[simp] theorem isBin_bitChar (b : Bit) : isBin (bitChar b) = true := by cases b <;> decide
@[simp] theorem isCmdStart_bitChar (b : Bit) : isCmdStart (bitChar b) = false := by cases b <;> decide
@[simp] theorem bitChar_ne_colon (b : Bit) : bitChar b ≠ chColon := by cases b <;> decide
@[simp] theorem bitChar_ne_close (b : Bit) : bitChar b ≠ chClose := by cases b <;> decide
@[simp] theorem bitChar_eq_ch1 (b : Bit) : (bitChar b == ch1) = b := by cases b <;> decide
@[simp] theorem isCmdStart_colon : isCmdStart chColon = false := by decide

theorem isDigit_digitChar {d : Nat} (h : d < 10) : isDigit (digitChar d) = true := by
  revert d; decide

theorem digitVal_digitChar {d : Nat} (h : d < 10) : digitVal (digitChar d) = d := by
  revert d; decide

/-! ### Counts -/

theorem decVal_concat (d : Text) (c : Byte) : decVal (d ++ [c]) = decVal d * 10 + digitVal c := by
  simp [decVal]

theorem digitsFuel_spec (f n : Nat) (h : n ≤ f) :
    decVal (digitsFuel f n) = n ∧ digitsFuel f n ≠ [] ∧ (digitsFuel f n).all isDigit = true := by
  induction f generalizing n with
  | zero => obtain rfl : n = 0 := by omega
            decide
  | succ f ih =>
    rw [digitsFuel]; split
    next hn => simp [decVal, digitVal_digitChar hn, isDigit_digitChar hn]
    next hn =>
      obtain ⟨h1, -, h3⟩ := ih (n / 10) (by omega)
      have hm : n % 10 < 10 := Nat.mod_lt _ (by decide)
      refine ⟨?_, by simp, ?_⟩
      · rw [decVal_concat, h1, digitVal_digitChar hm]; omega
      · rw [List.all_append, h3]; simp [isDigit_digitChar hm]

@[simp] theorem decVal_encodeNat (n : Nat) : decVal (encodeNat n) = n := (digitsFuel_spec n n (Nat.le_refl n)).1
theorem encodeNat_ne_nil (n : Nat) : encodeNat n ≠ [] := (digitsFuel_spec n n (Nat.le_refl n)).2.1
theorem encodeNat_all_isDigit (n : Nat) : (encodeNat n).all isDigit = true :=
  (digitsFuel_spec n n (Nat.le_refl n)).2.2

/-! ### Literals and patterns -/

@[simp] theorem bitsOf_encodeBits (b : Bits) : bitsOf (encodeBits b) = b := by
  simp [bitsOf, encodeBits, Function.comp_def]

@[simp] theorem encodeBits_length (b : Bits) : (encodeBits b).length = b.length := by simp [encodeBits]

theorem mem_encodeBits {b : Bits} {c : Byte} (h : c ∈ encodeBits b) : ∃ x, c = bitChar x := by
  simp only [encodeBits, List.mem_map] at h
  obtain ⟨x, _, rfl⟩ := h
  exact ⟨x, rfl⟩

@[simp] theorem encodeBits_all_isBin (b : Bits) : (encodeBits b).all isBin = true := by
  simp [encodeBits]

@[simp] theorem makePattern_encodeBits (p : Pattern) : makePattern (encodeBits p.bits) = .ok p := by
  obtain ⟨x, r⟩ := p
  have h := encodeBits_all_isBin (x :: r)
  have hr := bitsOf_encodeBits r
  simp only [encodeBits, Pattern.bits, List.map_cons] at h hr ⊢
  simp [makePattern, h, hr]

@[simp] theorem count_colon_encodeBits (b : Bits) : (encodeBits b).count chColon = 0 := by
  rw [List.count_eq_zero]
  intro h
  obtain ⟨x, hx⟩ := mem_encodeBits h
  exact bitChar_ne_colon x hx.symm

theorem count_colon_of_digits {d : Text} (h : d.all isDigit = true) : d.count chColon = 0 := by
  rw [List.count_eq_zero]
  intro hm
  exact not_colon_of_isDigit (List.all_eq_true.mp h _ hm) rfl

/-- How an argument `count:pattern` splits at its colon. -/
theorem colon_split {d : Text} (h : d.all isDigit = true) (b : Bits) :
    (d ++ chColon :: encodeBits b).count chColon = 1 ∧
      beforeColon (d ++ chColon :: encodeBits b) = d ∧
      afterColon (d ++ chColon :: encodeBits b) = encodeBits b := by
  have hd : ∀ c ∈ d, (c != chColon) = true := fun c hc => by
    simpa using not_colon_of_isDigit (List.all_eq_true.mp h c hc)
  have hs : ∀ c r, chColon :: encodeBits b = c :: r → (c != chColon) = false := by
    intro c r e; cases e; simp
  refine ⟨?_, takeWhile_run hd hs, ?_⟩
  · simp [List.count_append, count_colon_of_digits h]
  · simp [afterColon, dropWhile_run hd hs]

/-- An argument `count:pattern` is one argument run. -/
theorem argRun_colon {d rest : Text} (h : d.all isDigit = true) (b : Bits)
    (hr : ∀ c r, rest = c :: r → isCmdStart c = true) :
    argRun (d ++ chColon :: encodeBits b ++ rest) = d ++ chColon :: encodeBits b := by
  refine argRun_append ?_ hr
  intro c hc
  simp only [List.mem_append, List.mem_cons] at hc
  rcases hc with hc | rfl | hc
  · exact not_isCmdStart_of_isDigit (List.all_eq_true.mp h c hc)
  · rfl
  · obtain ⟨x, rfl⟩ := mem_encodeBits hc; simp

/-! ### Formats: what each decoder reads from a text that has its format -/

theorem decodeN_append {mk : Nat → Instr} {d rest : Text} (h0 : d ≠ []) (hd : d.all isDigit = true)
    (hr : ∀ c r, rest = c :: r → isDigit c = false) :
    decodeN mk (d ++ rest) = .ok (mk (decVal d), d.length) := by
  simp [decodeN, digitRun_append hd hr, h0]

theorem decodeL_append {mk : Nat → Pattern → Instr} {d rest : Text} (p : Pattern) (h0 : d ≠ [])
    (hd : d.all isDigit = true) (hr : ∀ c r, rest = c :: r → isCmdStart c = true) :
    decodeL mk (d ++ chColon :: encodeBits p.bits ++ rest) =
      .ok (mk (decVal d) p, d.length + 1 + p.bits.length) := by
  obtain ⟨h1, h2, h3⟩ := colon_split hd p.bits
  simp only [decodeL, argRun_colon hd p.bits hr, h1, h2, h3, hd, h0, makePattern_encodeBits]
  simp; omega

theorem decodeCL_append {op : LogicOp} {rest : Text} (p : Pattern)
    (hr : ∀ c r, rest = c :: r → isCmdStart c = true) :
    decodeCL op (chColon :: encodeBits p.bits ++ rest) = .ok (.logical op p, 1 + p.bits.length) := by
  obtain ⟨h1, h2, h3⟩ := colon_split (d := []) rfl p.bits
  have h := argRun_colon (d := []) (rest := rest) rfl p.bits hr
  simp only [List.nil_append] at h h1 h2 h3
  simp only [decodeCL, h, h1, h2, h3, makePattern_encodeBits]
  simp; omega

end Sys2Proof
end

