-- ==== Sys2Proof/Laws/State.lean ====
section
/-! SUPPORT. One lemma per field per update of State, true by `rfl`, for simp: no later proof unfolds a
record update. -/

namespace Sys2Proof.Machine

/-! ### `advance` -/

@[simp] theorem advance_inb (m : Nat) (s : State) : (advance m s).inb = s.inb := rfl
@[simp] theorem advance_prog (m : Nat) (s : State) : (advance m s).prog = s.prog := rfl
@[simp] theorem advance_argStart (m : Nat) (s : State) : (advance m s).argStart = s.argStart := rfl
@[simp] theorem advance_argEnd (m : Nat) (s : State) : (advance m s).argEnd = s.argEnd := rfl
@[simp] theorem advance_verbose (m : Nat) (s : State) : (advance m s).verbose = s.verbose := rfl
@[simp] theorem advance_verboseOnce (m : Nat) (s : State) : (advance m s).verboseOnce = s.verboseOnce := rfl
@[simp] theorem advance_status (m : Nat) (s : State) : (advance m s).status = s.status := rfl
@[simp] theorem advance_err (m : Nat) (s : State) : (advance m s).err = s.err := rfl
@[simp] theorem advance_outb (m : Nat) (s : State) : (advance m s).outb = s.outb := rfl
@[simp] theorem advance_outNbytes (m : Nat) (s : State) : (advance m s).outNbytes = s.outNbytes := rfl
@[simp] theorem advance_rs (m : Nat) (s : State) : (advance m s).rs = s.rs := rfl
@[simp] theorem advance_re (m : Nat) (s : State) : (advance m s).re = s.re := rfl
@[simp] theorem advance_pos (m : Nat) (s : State) : (advance m s).pos = s.pos + m := rfl
@[simp] theorem advance_tp (m : Nat) (s : State) : (advance m s).tp = s.tp := rfl
@[simp] theorem advance_pass (m : Nat) (s : State) : (advance m s).pass = s.pass := rfl
@[simp] theorem advance_out (m : Nat) (s : State) : (advance m s).out = s.out := rfl
@[simp] theorem advance_work (m : Nat) (s : State) : (advance m s).work = s.work := rfl
@[simp] theorem advance_trace (m : Nat) (s : State) : (advance m s).trace = s.trace := rfl
@[simp] theorem advance_hostIn (m : Nat) (s : State) : (advance m s).hostIn = s.hostIn := rfl
@[simp] theorem advance_freeCtr (m : Nat) (s : State) : (advance m s).freeCtr = s.freeCtr := rfl

/-! ### `onWork` -/

@[simp] theorem onWork_inb (f : Bits → Bits) (s : State) : (onWork f s).inb = s.inb := rfl
@[simp] theorem onWork_prog (f : Bits → Bits) (s : State) : (onWork f s).prog = s.prog := rfl
@[simp] theorem onWork_argStart (f : Bits → Bits) (s : State) : (onWork f s).argStart = s.argStart := rfl
@[simp] theorem onWork_argEnd (f : Bits → Bits) (s : State) : (onWork f s).argEnd = s.argEnd := rfl
@[simp] theorem onWork_verbose (f : Bits → Bits) (s : State) : (onWork f s).verbose = s.verbose := rfl
@[simp] theorem onWork_verboseOnce (f : Bits → Bits) (s : State) : (onWork f s).verboseOnce = s.verboseOnce := rfl
@[simp] theorem onWork_status (f : Bits → Bits) (s : State) : (onWork f s).status = s.status := rfl
@[simp] theorem onWork_err (f : Bits → Bits) (s : State) : (onWork f s).err = s.err := rfl
@[simp] theorem onWork_outb (f : Bits → Bits) (s : State) : (onWork f s).outb = s.outb := rfl
@[simp] theorem onWork_outNbytes (f : Bits → Bits) (s : State) : (onWork f s).outNbytes = s.outNbytes := rfl
@[simp] theorem onWork_rs (f : Bits → Bits) (s : State) : (onWork f s).rs = s.rs := rfl
@[simp] theorem onWork_re (f : Bits → Bits) (s : State) : (onWork f s).re = s.re := rfl
@[simp] theorem onWork_pos (f : Bits → Bits) (s : State) : (onWork f s).pos = s.pos := rfl
@[simp] theorem onWork_tp (f : Bits → Bits) (s : State) : (onWork f s).tp = s.tp := rfl
@[simp] theorem onWork_pass (f : Bits → Bits) (s : State) : (onWork f s).pass = s.pass := rfl
@[simp] theorem onWork_out (f : Bits → Bits) (s : State) : (onWork f s).out = s.out := rfl
@[simp] theorem onWork_work (f : Bits → Bits) (s : State) : (onWork f s).work = f s.work := rfl
@[simp] theorem onWork_trace (f : Bits → Bits) (s : State) : (onWork f s).trace = s.trace := rfl
@[simp] theorem onWork_hostIn (f : Bits → Bits) (s : State) : (onWork f s).hostIn = s.hostIn := rfl
@[simp] theorem onWork_freeCtr (f : Bits → Bits) (s : State) : (onWork f s).freeCtr = s.freeCtr := rfl

/-! ### `raiseError` -/

@[simp] theorem raiseError_inb (k : ErrorKind) (s : State) : (raiseError k s).inb = s.inb := rfl
@[simp] theorem raiseError_prog (k : ErrorKind) (s : State) : (raiseError k s).prog = s.prog := rfl
@[simp] theorem raiseError_argStart (k : ErrorKind) (s : State) : (raiseError k s).argStart = s.argStart := rfl
@[simp] theorem raiseError_argEnd (k : ErrorKind) (s : State) : (raiseError k s).argEnd = s.argEnd := rfl
@[simp] theorem raiseError_verbose (k : ErrorKind) (s : State) : (raiseError k s).verbose = s.verbose := rfl
@[simp] theorem raiseError_verboseOnce (k : ErrorKind) (s : State) : (raiseError k s).verboseOnce = s.verboseOnce := rfl
@[simp] theorem raiseError_status (k : ErrorKind) (s : State) : (raiseError k s).status = .doneErr := rfl
@[simp] theorem raiseError_err (k : ErrorKind) (s : State) : (raiseError k s).err = errorCode k := rfl
@[simp] theorem raiseError_outb (k : ErrorKind) (s : State) : (raiseError k s).outb = [] := rfl
@[simp] theorem raiseError_outNbytes (k : ErrorKind) (s : State) : (raiseError k s).outNbytes = 0 := rfl
@[simp] theorem raiseError_rs (k : ErrorKind) (s : State) : (raiseError k s).rs = s.rs := rfl
@[simp] theorem raiseError_re (k : ErrorKind) (s : State) : (raiseError k s).re = s.re := rfl
@[simp] theorem raiseError_pos (k : ErrorKind) (s : State) : (raiseError k s).pos = s.pos := rfl
@[simp] theorem raiseError_tp (k : ErrorKind) (s : State) : (raiseError k s).tp = s.tp := rfl
@[simp] theorem raiseError_pass (k : ErrorKind) (s : State) : (raiseError k s).pass = s.pass := rfl
@[simp] theorem raiseError_out (k : ErrorKind) (s : State) : (raiseError k s).out = [] := rfl
@[simp] theorem raiseError_work (k : ErrorKind) (s : State) : (raiseError k s).work = s.work := rfl
@[simp] theorem raiseError_trace (k : ErrorKind) (s : State) : (raiseError k s).trace = s.trace := rfl
@[simp] theorem raiseError_hostIn (k : ErrorKind) (s : State) : (raiseError k s).hostIn = s.hostIn := rfl
@[simp] theorem raiseError_freeCtr (k : ErrorKind) (s : State) : (raiseError k s).freeCtr = s.freeCtr := rfl

/-! ### `beginRun` -/

@[simp] theorem beginRun_inb (a b : Nat) (s : State) : (beginRun a b s).inb = s.inb := rfl
@[simp] theorem beginRun_prog (a b : Nat) (s : State) : (beginRun a b s).prog = s.prog := rfl
@[simp] theorem beginRun_argStart (a b : Nat) (s : State) : (beginRun a b s).argStart = s.argStart := rfl
@[simp] theorem beginRun_argEnd (a b : Nat) (s : State) : (beginRun a b s).argEnd = s.argEnd := rfl
@[simp] theorem beginRun_verbose (a b : Nat) (s : State) : (beginRun a b s).verbose = s.verbose := rfl
@[simp] theorem beginRun_verboseOnce (a b : Nat) (s : State) : (beginRun a b s).verboseOnce = s.verboseOnce := rfl
@[simp] theorem beginRun_status (a b : Nat) (s : State) : (beginRun a b s).status = .busy := rfl
@[simp] theorem beginRun_err (a b : Nat) (s : State) : (beginRun a b s).err = 0 := rfl
@[simp] theorem beginRun_outb (a b : Nat) (s : State) : (beginRun a b s).outb = Config.freeBytes s.freeCtr := rfl
@[simp] theorem beginRun_outNbytes (a b : Nat) (s : State) : (beginRun a b s).outNbytes = Config.freeNat s.freeCtr := rfl
@[simp] theorem beginRun_rs (a b : Nat) (s : State) : (beginRun a b s).rs = a := rfl
@[simp] theorem beginRun_re (a b : Nat) (s : State) : (beginRun a b s).re = b := rfl
@[simp] theorem beginRun_pos (a b : Nat) (s : State) : (beginRun a b s).pos = a := rfl
@[simp] theorem beginRun_tp (a b : Nat) (s : State) : (beginRun a b s).tp = 0 := rfl
@[simp] theorem beginRun_pass (a b : Nat) (s : State) : (beginRun a b s).pass = 0 := rfl
@[simp] theorem beginRun_out (a b : Nat) (s : State) : (beginRun a b s).out = [] := rfl
@[simp] theorem beginRun_work (a b : Nat) (s : State) : (beginRun a b s).work = [] := rfl
@[simp] theorem beginRun_trace (a b : Nat) (s : State) : (beginRun a b s).trace = [] := rfl
@[simp] theorem beginRun_hostIn (a b : Nat) (s : State) : (beginRun a b s).hostIn = s.hostIn := rfl
@[simp] theorem beginRun_freeCtr (a b : Nat) (s : State) : (beginRun a b s).freeCtr = s.freeCtr + 1 := rfl

/-! ### `finishRun` -/

@[simp] theorem finishRun_inb (s : State) : (finishRun s).inb = s.inb := rfl
@[simp] theorem finishRun_prog (s : State) : (finishRun s).prog = s.prog := rfl
@[simp] theorem finishRun_argStart (s : State) : (finishRun s).argStart = s.argStart := rfl
@[simp] theorem finishRun_argEnd (s : State) : (finishRun s).argEnd = s.argEnd := rfl
@[simp] theorem finishRun_verbose (s : State) : (finishRun s).verbose = s.verbose := rfl
@[simp] theorem finishRun_verboseOnce (s : State) : (finishRun s).verboseOnce = s.verboseOnce := rfl
@[simp] theorem finishRun_status (s : State) : (finishRun s).status = .doneOk := rfl
@[simp] theorem finishRun_err (s : State) : (finishRun s).err = 0 := rfl
@[simp] theorem finishRun_outb (s : State) : (finishRun s).outb = unpackFromBits s.out := rfl
@[simp] theorem finishRun_outNbytes (s : State) : (finishRun s).outNbytes = ceil8 s.out.length := rfl
@[simp] theorem finishRun_rs (s : State) : (finishRun s).rs = s.rs := rfl
@[simp] theorem finishRun_re (s : State) : (finishRun s).re = s.re := rfl
@[simp] theorem finishRun_pos (s : State) : (finishRun s).pos = s.pos := rfl
@[simp] theorem finishRun_tp (s : State) : (finishRun s).tp = s.tp := rfl
@[simp] theorem finishRun_pass (s : State) : (finishRun s).pass = s.pass := rfl
@[simp] theorem finishRun_out (s : State) : (finishRun s).out = s.out := rfl
@[simp] theorem finishRun_work (s : State) : (finishRun s).work = s.work := rfl
@[simp] theorem finishRun_trace (s : State) : (finishRun s).trace = s.trace := rfl
@[simp] theorem finishRun_hostIn (s : State) : (finishRun s).hostIn = s.hostIn := rfl
@[simp] theorem finishRun_freeCtr (s : State) : (finishRun s).freeCtr = s.freeCtr := rfl

/-! ### `atTextStart` -/

@[simp] theorem atTextStart_inb (x : Text) (s : State) : (atTextStart x s).inb = s.inb := rfl
@[simp] theorem atTextStart_prog (x : Text) (s : State) : (atTextStart x s).prog = x := rfl
@[simp] theorem atTextStart_argStart (x : Text) (s : State) : (atTextStart x s).argStart = s.argStart := rfl
@[simp] theorem atTextStart_argEnd (x : Text) (s : State) : (atTextStart x s).argEnd = s.argEnd := rfl
@[simp] theorem atTextStart_verbose (x : Text) (s : State) : (atTextStart x s).verbose = s.verbose := rfl
@[simp] theorem atTextStart_verboseOnce (x : Text) (s : State) : (atTextStart x s).verboseOnce = s.verboseOnce := rfl
@[simp] theorem atTextStart_status (x : Text) (s : State) : (atTextStart x s).status = .busy := rfl
@[simp] theorem atTextStart_err (x : Text) (s : State) : (atTextStart x s).err = s.err := rfl
@[simp] theorem atTextStart_outb (x : Text) (s : State) : (atTextStart x s).outb = s.outb := rfl
@[simp] theorem atTextStart_outNbytes (x : Text) (s : State) : (atTextStart x s).outNbytes = s.outNbytes := rfl
@[simp] theorem atTextStart_rs (x : Text) (s : State) : (atTextStart x s).rs = s.rs := rfl
@[simp] theorem atTextStart_re (x : Text) (s : State) : (atTextStart x s).re = s.re := rfl
@[simp] theorem atTextStart_pos (x : Text) (s : State) : (atTextStart x s).pos = s.pos := rfl
@[simp] theorem atTextStart_tp (x : Text) (s : State) : (atTextStart x s).tp = 0 := rfl
@[simp] theorem atTextStart_pass (x : Text) (s : State) : (atTextStart x s).pass = s.pass := rfl
@[simp] theorem atTextStart_out (x : Text) (s : State) : (atTextStart x s).out = s.out := rfl
@[simp] theorem atTextStart_work (x : Text) (s : State) : (atTextStart x s).work = [] := rfl
@[simp] theorem atTextStart_trace (x : Text) (s : State) : (atTextStart x s).trace = s.trace := rfl
@[simp] theorem atTextStart_hostIn (x : Text) (s : State) : (atTextStart x s).hostIn = [] := rfl
@[simp] theorem atTextStart_freeCtr (x : Text) (s : State) : (atTextStart x s).freeCtr = s.freeCtr := rfl

/-! ### `emitTrace` changes the trace only -/

@[simp] theorem emitTrace_inb (i : Instr) (s : State) : (emitTrace i s).inb = s.inb := by
  unfold emitTrace; split <;> rfl
@[simp] theorem emitTrace_prog (i : Instr) (s : State) : (emitTrace i s).prog = s.prog := by
  unfold emitTrace; split <;> rfl
@[simp] theorem emitTrace_argStart (i : Instr) (s : State) : (emitTrace i s).argStart = s.argStart := by
  unfold emitTrace; split <;> rfl
@[simp] theorem emitTrace_argEnd (i : Instr) (s : State) : (emitTrace i s).argEnd = s.argEnd := by
  unfold emitTrace; split <;> rfl
@[simp] theorem emitTrace_verbose (i : Instr) (s : State) : (emitTrace i s).verbose = s.verbose := by
  unfold emitTrace; split <;> rfl
@[simp] theorem emitTrace_verboseOnce (i : Instr) (s : State) : (emitTrace i s).verboseOnce = s.verboseOnce := by
  unfold emitTrace; split <;> rfl
@[simp] theorem emitTrace_status (i : Instr) (s : State) : (emitTrace i s).status = s.status := by
  unfold emitTrace; split <;> rfl
@[simp] theorem emitTrace_err (i : Instr) (s : State) : (emitTrace i s).err = s.err := by
  unfold emitTrace; split <;> rfl
@[simp] theorem emitTrace_outb (i : Instr) (s : State) : (emitTrace i s).outb = s.outb := by
  unfold emitTrace; split <;> rfl
@[simp] theorem emitTrace_outNbytes (i : Instr) (s : State) : (emitTrace i s).outNbytes = s.outNbytes := by
  unfold emitTrace; split <;> rfl
@[simp] theorem emitTrace_rs (i : Instr) (s : State) : (emitTrace i s).rs = s.rs := by
  unfold emitTrace; split <;> rfl
@[simp] theorem emitTrace_re (i : Instr) (s : State) : (emitTrace i s).re = s.re := by
  unfold emitTrace; split <;> rfl
@[simp] theorem emitTrace_pos (i : Instr) (s : State) : (emitTrace i s).pos = s.pos := by
  unfold emitTrace; split <;> rfl
@[simp] theorem emitTrace_tp (i : Instr) (s : State) : (emitTrace i s).tp = s.tp := by
  unfold emitTrace; split <;> rfl
@[simp] theorem emitTrace_pass (i : Instr) (s : State) : (emitTrace i s).pass = s.pass := by
  unfold emitTrace; split <;> rfl
@[simp] theorem emitTrace_out (i : Instr) (s : State) : (emitTrace i s).out = s.out := by
  unfold emitTrace; split <;> rfl
@[simp] theorem emitTrace_work (i : Instr) (s : State) : (emitTrace i s).work = s.work := by
  unfold emitTrace; split <;> rfl
@[simp] theorem emitTrace_hostIn (i : Instr) (s : State) : (emitTrace i s).hostIn = s.hostIn := by
  unfold emitTrace; split <;> rfl
@[simp] theorem emitTrace_freeCtr (i : Instr) (s : State) : (emitTrace i s).freeCtr = s.freeCtr := by
  unfold emitTrace; split <;> rfl

end Sys2Proof.Machine
end

