-- ==== Sys2Proof/Laws/Ops.lean ====
section
/-! SUPPORT. For each shared operation one lemma that says everything it can do, which later proofs
cite instead of unfolding it. -/

namespace Sys2Proof.Machine

/-! ### Sequencing of outcomes -/

@[simp] theorem andThen_next (s : State) (k : State → Result) : andThen (.next s) k = k s := rfl
@[simp] theorem andThen_fault (f : Fault) (k : State → Result) : andThen (.fault f) k = .fault f := rfl
@[simp] theorem andThen_refused (r : Refusal) (k : State → Result) :
    andThen (.refused r) k = .refused r := rfl

theorem andThen_eq_next {r : Result} {k : State → Result} {t : State} :
    andThen r k = .next t ↔ ∃ u, r = .next u ∧ k u = .next t := by
  cases r <;> simp

/-! ### Capacities at the spec's default -/

@[simp] theorem within_maxInBytes (n : Nat) : Config.within Config.maxInBytes n = true := rfl
@[simp] theorem within_maxProgChars (n : Nat) : Config.within Config.maxProgChars n = true := rfl
@[simp] theorem within_maxOutBits (n : Nat) : Config.within Config.maxOutBits n = true := rfl

/-! ### The units keep the length of a chunk -/

@[simp] theorem inv_length (c : Bits) : (inv c).length = c.length := by simp [inv]
@[simp] theorem brev_length (c : Bits) : (brev c).length = c.length := by simp [brev]
@[simp] theorem mask_length (op : LogicOp) (c : Bits) (p : Pattern) :
    (mask op c p).length = c.length := by simp [mask]

theorem chunkByte_length {c : Bits} {k : Nat} (h : k < c.length / 8) : (chunkByte c k).length = 8 := by
  simp [chunkByte]; omega

theorem flatMap_chunkByte_length (c : Bits) :
    ∀ ks : List Nat, (∀ k ∈ ks, k < c.length / 8) → (ks.flatMap (chunkByte c)).length = 8 * ks.length
  | [], _ => rfl
  | k :: ks, h => by
    simp only [List.mem_cons, forall_eq_or_imp] at h
    simp only [List.flatMap_cons, List.length_append, List.length_cons,
      chunkByte_length h.1, flatMap_chunkByte_length c ks h.2]
    omega

@[simp] theorem bswap_length (c : Bits) : (bswap c).length = c.length := by
  have h := flatMap_chunkByte_length c (List.range (c.length / 8)).reverse (by simp)
  simp only [bswap, List.length_append, h, List.length_reverse, List.length_range, List.length_drop]
  omega

@[simp] theorem apply1_length (k : ChainCmd) (w : Bits) : (apply1 k w).length = w.length := by
  cases k <;> simp [apply1]

@[simp] theorem applyChain_cons (k : ChainCmd) (ks : List ChainCmd) (c : Bits) :
    applyChain (k :: ks) c = applyChain ks (apply1 k c) := rfl

@[simp] theorem applyChain_length (ks : List ChainCmd) (c : Bits) :
    (applyChain ks c).length = c.length := by
  induction ks generalizing c with
  | nil => rfl
  | cons k ks ih => simp [ih]

/-! ### The bit view of the input -/

@[simp] theorem byteBits_length (b : Byte) : (byteBits b).length = 8 := by simp [byteBits]

@[simp] theorem packToBits_length (b : Bytes) : (packToBits b).length = 8 * b.length := by
  induction b with
  | nil => rfl
  | cons x xs ih => simp only [packToBits, List.flatMap_cons, List.length_append] at *; simp [ih]; omega

@[simp] theorem inbits_length (s : State) : s.inbits.length = s.len := by simp [State.inbits, State.len]

/-! ### Reading and consuming a chunk -/

theorem memRead_eq_some {s : State} {a m : Nat} {c : Bits} :
    memRead s a m = some c ↔
      (s.rs ≤ a ∧ a + m ≤ s.re ∧ a + m ≤ s.len) ∧ inputSlice s a m = c := by
  simp [memRead, inputSlice]

/-- In a window that is as R18 and R20 say, a clamped read at the cursor is defined (R32). -/
theorem memRead_clamped {s : State} (h : windowOk s) (n : Nat) :
    memRead s s.pos (clampCount s n) = some (inputSlice s s.pos (clampCount s n)) := by
  rw [memRead_eq_some]
  have : clampCount s n ≤ s.re - s.pos := Nat.min_le_right _ _
  exact ⟨⟨h.1, by omega, by omega⟩, rfl⟩

@[simp] theorem outAppend_eq (v : Bits) (s : State) : outAppend v s = .next { s with out := s.out ++ v } := rfl

/-- Everything `consume` can do. -/
theorem consume_cases (f : Bits → Bits) (n : Nat) (s : State) :
    (∃ c, memRead s s.pos (clampCount s n) = some c ∧
      consume f n s = .next (advance (clampCount s n) { s with out := s.out ++ f c })) ∨
    (memRead s s.pos (clampCount s n) = none ∧ consume f n s = .fault .readOutsideWindow) := by
  cases h : memRead s s.pos (clampCount s n) <;> simp [consume, h]

theorem consume_next {s : State} (h : windowOk s) (f : Bits → Bits) (n : Nat) :
    consume f n s = .next (advance (clampCount s n)
      { s with out := s.out ++ f (inputSlice s s.pos (clampCount s n)) }) := by
  simp [consume, memRead_clamped h]

/-! ### Chains and blocks -/

@[simp] theorem execChainCmd_eq (k : ChainCmd) (s : State) :
    execChainCmd k s = .next (onWork (apply1 k) s) := by
  cases k with
  | logical op p => cases op <;> rfl
  | _ => rfl

/-- A chain command in a block means what its opcode-table row means. -/
theorem exec_toInstr (k : ChainCmd) (s : State) : exec k.toInstr s = execChainCmd k s := by
  cases k with
  | logical op p => cases op <;> rfl
  | _ => rfl

theorem runChain_eq (ks : List ChainCmd) (s : State) :
    runChain ks s = .next { s with work := applyChain ks s.work } := by
  induction ks generalizing s with
  | nil => rfl
  | cons k ks ih => simp [runChain, ih, onWork]

@[simp] theorem closeBlock_eq (m : Nat) (s : State) :
    closeBlock m s = .next (advance m { s with out := s.out ++ s.work, work := [] }) := rfl

/-- Everything a block can do. -/
theorem execBlock_cases (chain : List ChainCmd) (n : Nat) (s : State) :
    (∃ c, memRead s s.pos (clampCount s n) = some c ∧
      execBlock chain n s = .next (advance (clampCount s n)
        { s with out := s.out ++ applyChain chain c, work := [] })) ∨
    (memRead s s.pos (clampCount s n) = none ∧
      execBlock chain n s = .fault .readOutsideWindow) := by
  cases h : memRead s s.pos (clampCount s n) <;> simp [execBlock, h, runChain_eq]

/-! ### The range -/

theorem rangeEnd_bounds (e : Int) (len : Nat) : 0 ≤ rangeEnd e len ∧ rangeEnd e len ≤ len := by
  unfold rangeEnd; split <;> omega

/-- When `NormaliseRange` accepts, and which window it gives (R82). -/
theorem normaliseRange_eq_ok {a e : Int} {len rs re : Nat} :
    normaliseRange a e len = .ok (rs, re) ↔
      (0 ≤ a ∧ a ≤ len ∧ a ≤ rangeEnd e len) ∧ rs = a.toNat ∧ re = (rangeEnd e len).toNat := by
  unfold normaliseRange
  by_cases h1 : a < 0 ∨ (len : Int) < a
  · simp only [h1, if_true]; constructor
    · intro h; cases h
    · omega
  · by_cases h2 : rangeEnd e len < a
    · simp only [h1, h2, if_true, if_false]; constructor
      · intro h; cases h
      · omega
    · simp only [h1, h2, if_false, Except.ok.injEq, Prod.mk.injEq]; constructor
      · rintro ⟨rfl, rfl⟩; omega
      · omega

/-- What a window that `NormaliseRange` accepts looks like (R18). -/
theorem normaliseRange_bounds {a e : Int} {len rs re : Nat}
    (h : normaliseRange a e len = .ok (rs, re)) : rs ≤ re ∧ re ≤ len := by
  have := rangeEnd_bounds e len
  have := normaliseRange_eq_ok.mp h
  omega

/-- Everything GO can do to a unit that is not BUSY. -/
theorem startRun_cases (s : State) :
    (∃ rs re, normaliseRange s.argStart s.argEnd s.len = .ok (rs, re) ∧
      startRun s = .next (beginRun rs re s)) ∨
    (∃ k, normaliseRange s.argStart s.argEnd s.len = .error k ∧
      startRun s = .next (raiseError k { s with trace := [] })) := by
  cases h : normaliseRange s.argStart s.argEnd s.len with
  | error k => exact .inr ⟨k, rfl, by simp [startRun, h]⟩
  | ok w => exact .inl ⟨w.1, w.2, rfl, by simp [startRun, h]⟩

/-! ### The end of a pass -/

/-- Everything the end of a pass can do. -/
theorem endPass_cases (s : State) :
    (exhausted s = true ∧ endPass s = finishRun { s with pass := s.pass + 1 }) ∨
    (exhausted s = false ∧ endPass s = { s with pass := s.pass + 1, tp := 0 }) := by
  cases h : exhausted s <;> simp [endPass, h]

/-! ### Every memory operation keeps the form of the memory -/

theorem memory_wf_iff {s : State} :
    Memory.wf s = true ↔ (s.status = .busy → windowOk s ∧ s.tp ≤ s.prog.length) := by
  by_cases h : s.status = .busy <;> simp [Memory.wf, h]

theorem outAppend_keeps_memory_wf {v : Bits} {s t : State} (hw : Memory.wf s = true)
    (h : outAppend v s = .next t) : Memory.wf t = true := by
  simp only [outAppend_eq, Host.Outcome.next.injEq] at h
  subst h; exact hw

theorem advance_keeps_memory_wf {m : Nat} {s : State} (hw : Memory.wf s = true)
    (hm : s.pos + m ≤ s.re) : Memory.wf (advance m s) = true := by
  rw [memory_wf_iff] at *
  intro hb
  obtain ⟨⟨h1, h2, h3⟩, h4⟩ := hw hb
  exact ⟨⟨Nat.le_trans h1 (Nat.le_add_right _ _), hm, h3⟩, h4⟩

theorem consume_keeps_memory_wf {f : Bits → Bits} {n : Nat} {s t : State} (hw : Memory.wf s = true)
    (h : consume f n s = .next t) : Memory.wf t = true := by
  rcases consume_cases f n s with ⟨c, hc, h'⟩ | ⟨_, h'⟩
  · rw [h'] at h; cases h
    refine advance_keeps_memory_wf (s := { s with out := s.out ++ f c }) hw ?_
    exact (memRead_eq_some.mp hc).1.2.1
  · rw [h'] at h; cases h

theorem reset_memory_wf : Memory.wf State.reset = true := by decide

end Sys2Proof.Machine
end

