-- ==== Sys2Proof/Laws/PerInstr.lean ====
section
/-! SUPPORT. Statements made for every constructor of Instr. OpcodeChar: a command's text begins with
the character the opcode table gives its row (30_encoding.md R62). -/

/-- The text of `i` is its opcode character and what follows. -/
def Sys2Proof.Laws.OpcodeChar.Statement (i : Sys2Proof.Instr) : Prop :=
  ∃ rest, Sys2Proof.encode i = Sys2Proof.opcodeChar i :: rest

namespace Sys2Proof.Laws.OpcodeChar

theorem take (n : Nat) : Statement (.take n) := ⟨_, rfl⟩
theorem skip (n : Nat) : Statement (.skip n) := ⟨_, rfl⟩
theorem insert (lit : Bits) : Statement (.insert lit) := ⟨_, rfl⟩
theorem invert (n : Nat) : Statement (.invert n) := ⟨_, rfl⟩
theorem reverseBits (n : Nat) : Statement (.reverseBits n) := ⟨_, rfl⟩
theorem byteSwap (n : Nat) : Statement (.byteSwap n) := ⟨_, rfl⟩
theorem logicXor (n : Nat) (p : Pattern) : Statement (.logicXor n p) := ⟨_, rfl⟩
theorem logicAnd (n : Nat) (p : Pattern) : Statement (.logicAnd n p) := ⟨_, rfl⟩
theorem logicOr (n : Nat) (p : Pattern) : Statement (.logicOr n p) := ⟨_, rfl⟩
theorem block (chain : List ChainCmd) (n : Nat) : Statement (.block chain n) := ⟨_, rfl⟩
theorem chainInvert : Statement .chainInvert := ⟨_, rfl⟩
theorem chainReverseBits : Statement .chainReverseBits := ⟨_, rfl⟩
theorem chainByteSwap : Statement .chainByteSwap := ⟨_, rfl⟩
theorem chainXor (p : Pattern) : Statement (.chainXor p) := ⟨_, rfl⟩
theorem chainAnd (p : Pattern) : Statement (.chainAnd p) := ⟨_, rfl⟩
theorem chainOr (p : Pattern) : Statement (.chainOr p) := ⟨_, rfl⟩

end Sys2Proof.Laws.OpcodeChar
end

