-- ==== Sys2Proof/Laws/Step.lean ====
section
/-! SUPPORT. Everything a command can do and everything a step can do, said once. -/

namespace Sys2Proof.Machine

/-! ### Commands -/

/-- A top-level command in a window that is as R18 and R20 say: what it appends and how far it moves
the cursor (42_sequencer.md R88). -/
theorem exec_topLevel {i : Instr} {s : State} (hi : i.topLevel = true) (hw : windowOk s)
    (h0 : s.work = []) :
    exec i s = .next { s with
      out := s.out ++ appended i (inputSlice s s.pos (moved i (s.re - s.pos)))
      pos := s.pos + moved i (s.re - s.pos) } := by
  cases i with
  | take n => exact consume_next hw _ n
  | skip n => simp [exec, execSkip, advance, appended, moved, Instr.count?, clampCount]
  | insert lit => rfl
  | invert n => exact consume_next hw _ n
  | reverseBits n => exact consume_next hw _ n
  | byteSwap n => exact consume_next hw _ n
  | logicXor n p => exact consume_next hw _ n
  | logicAnd n p => exact consume_next hw _ n
  | logicOr n p => exact consume_next hw _ n
  | block chain n =>
    rcases execBlock_cases chain n s with ⟨c, hc, he⟩ | ⟨hc, _⟩
    · rw [memRead_clamped hw, Option.some.injEq] at hc
      rw [exec, he, ← hc, ← h0]; rfl
    · rw [memRead_clamped hw] at hc; cases hc
  | _ => cases hi

/-- A chain command as an instruction of its own: its unit on W (46_block.md R113 to R118). -/
theorem exec_chain (k : ChainCmd) (s : State) :
    exec k.toInstr s = .next { s with work := apply1 k s.work } := by
  rw [exec_toInstr, execChainCmd_eq]; rfl

/-- Everything a command can do (its frame, 42_sequencer.md R88): it stops outside the window (log 9), or
it changes OUT, the cursor and W alone. -/
theorem exec_cases (i : Instr) (s : State) :
    exec i s = .fault .readOutsideWindow ∨
      ∃ w, exec i s = .next { s with
          out := s.out ++ appended i (inputSlice s s.pos (moved i (s.re - s.pos)))
          pos := s.pos + moved i (s.re - s.pos)
          work := w } ∧
        (i.topLevel = true → (∀ chain n, i ≠ .block chain n) → w = s.work) ∧
        (∀ chain n, i = .block chain n → w = []) := by
  have h : ∀ f n, consume f n s = .fault .readOutsideWindow ∨
      consume f n s = .next { s with
        out := s.out ++ f (inputSlice s s.pos (min n (s.re - s.pos)))
        pos := s.pos + min n (s.re - s.pos)
        work := s.work } := by
    intro f n
    rcases consume_cases f n s with ⟨c, hc, h⟩ | ⟨_, h⟩
    · right; rw [h, ← (memRead_eq_some.mp hc).2]; rfl
    · exact .inl h
  have top : ∀ {j : Instr}, (∀ chain n, j ≠ .block chain n) →
      (j.topLevel = true → (∀ chain n, j ≠ .block chain n) → s.work = s.work) ∧
        (∀ chain n, j = .block chain n → s.work = []) :=
    fun hj => ⟨fun _ _ => rfl, fun c n e => absurd e (hj c n)⟩
  have chain : ∀ (k : ChainCmd), appended k.toInstr = (fun _ => []) ∧ moved k.toInstr = (fun _ => 0) ∧
      k.toInstr.topLevel = false ∧ ∀ c n, k.toInstr ≠ .block c n := by
    intro k
    cases k with
    | logical op p => cases op <;> exact ⟨rfl, rfl, rfl, fun _ _ e => by cases e⟩
    | _ => exact ⟨rfl, rfl, rfl, fun _ _ e => by cases e⟩
  have onW : ∀ k : ChainCmd, ∃ w, exec k.toInstr s = .next { s with
      out := s.out ++ appended k.toInstr (inputSlice s s.pos (moved k.toInstr (s.re - s.pos)))
      pos := s.pos + moved k.toInstr (s.re - s.pos)
      work := w } ∧ (k.toInstr.topLevel = true → (∀ chain n, k.toInstr ≠ .block chain n) → w = s.work) ∧
        (∀ chain n, k.toInstr = .block chain n → w = []) := by
    intro k
    obtain ⟨ha, hm, ht, hb⟩ := chain k
    refine ⟨apply1 k s.work, ?_, fun h => ?_, fun c n e => absurd e (hb c n)⟩
    · rw [exec_chain, ha, hm]; simp
    · rw [ht] at h; cases h
  have lift : ∀ {i f n}, exec i s = consume f n s → appended i = f → moved i = (fun r => min n r) →
      (∀ chain n, i ≠ .block chain n) → _ := fun {i f n} he ha hm hb =>
    (h f n).imp (fun e => he.trans e) (fun e =>
      (⟨s.work, by rw [he, e, ha, hm], top hb⟩ : ∃ w, exec i s = .next { s with
          out := s.out ++ appended i (inputSlice s s.pos (moved i (s.re - s.pos)))
          pos := s.pos + moved i (s.re - s.pos)
          work := w } ∧ (i.topLevel = true → (∀ chain n, i ≠ .block chain n) → w = s.work) ∧
            (∀ chain n, i = .block chain n → w = [])))
  cases i with
  | take n => exact lift rfl rfl rfl (fun _ _ e => by cases e)
  | skip n => exact .inr ⟨s.work, by simp [exec, execSkip, advance, appended, moved, Instr.count?, clampCount],
      top (fun _ _ e => by cases e)⟩
  | insert lit => exact .inr ⟨s.work, rfl, top (fun _ _ e => by cases e)⟩
  | invert n => exact lift rfl rfl rfl (fun _ _ e => by cases e)
  | reverseBits n => exact lift rfl rfl rfl (fun _ _ e => by cases e)
  | byteSwap n => exact lift rfl rfl rfl (fun _ _ e => by cases e)
  | logicXor n p => exact lift rfl rfl rfl (fun _ _ e => by cases e)
  | logicAnd n p => exact lift rfl rfl rfl (fun _ _ e => by cases e)
  | logicOr n p => exact lift rfl rfl rfl (fun _ _ e => by cases e)
  | block chain n =>
    rcases execBlock_cases chain n s with ⟨c, hc, he⟩ | ⟨_, he⟩
    · refine .inr ⟨[], ?_, fun _ hb => absurd rfl (hb chain n), fun _ _ _ => rfl⟩
      rw [exec, he, ← (memRead_eq_some.mp hc).2]; rfl
    · exact .inl he
  | chainInvert => exact .inr (onW .invert)
  | chainReverseBits => exact .inr (onW .reverseBits)
  | chainByteSwap => exact .inr (onW .byteSwap)
  | chainXor p => exact .inr (onW (.logical .xor p))
  | chainAnd p => exact .inr (onW (.logical .and p))
  | chainOr p => exact .inr (onW (.logical .or p))

/-! ### Steps -/

/-- The step that serves a pending action of the host. -/
theorem step_host {s : State} {a : HostReq} {rest : List HostReq} (h : s.hostIn = a :: rest) :
    step s = serveHost a { s with hostIn := rest } := by
  simp [step, cycle, h]

/-- Between invocations with nothing pending, a step changes nothing (log 11). -/
theorem step_idle {s : State} (h : s.hostIn = []) (hb : s.status ≠ .busy) : step s = .next s := by
  simp [step, cycle, h, hb]

theorem step_run {s : State} (h : inRun s) : step s = runStep s := by
  simp [step, cycle, h.1, h.2]

/-- Everything a step of a run can do. -/
theorem runStep_cases (s : State) :
    (s.tp = 0 ∧ exhausted s = true ∧ runStep s = .next (finishRun s)) ∨
    (¬(s.tp = 0 ∧ exhausted s = true) ∧
      ((decode s.prog s.tp = .endOfText ∧ runStep s = .next (endPass s)) ∨
        (∃ k, decode s.prog s.tp = .bad k ∧ runStep s = .next (raiseError k s)) ∨
        (∃ i q, decode s.prog s.tp = .command i q ∧ s.re ≤ s.pos ∧ runStep s = .next (endPass s)) ∨
        (∃ i q, decode s.prog s.tp = .command i q ∧ s.pos < s.re ∧ runStep s = runCommand i q s))) := by
  by_cases h : s.tp = 0 ∧ exhausted s = true
  · exact .inl ⟨h.1, h.2, by simp [runStep, h]⟩
  · refine .inr ⟨h, ?_⟩
    cases hd : decode s.prog s.tp with
    | endOfText => exact .inl ⟨rfl, by simp [runStep, h, hd]⟩
    | bad k => exact .inr (.inl ⟨k, rfl, by simp [runStep, h, hd]⟩)
    | command i q =>
      rcases Nat.lt_or_ge s.pos s.re with hp | hp
      · exact .inr (.inr (.inr ⟨i, q, rfl, hp, by simp [runStep, h, hd, Nat.not_le.mpr hp]⟩))
      · exact .inr (.inr (.inl ⟨i, q, rfl, hp, by simp [runStep, h, hd, hp]⟩))

/-- With a bit left in the window, a decoded command is executed (R86). -/
theorem runStep_command {s : State} {i : Instr} {q : Nat} (hp : s.pos < s.re)
    (hd : decode s.prog s.tp = .command i q) : runStep s = runCommand i q s := by
  have hx : ¬(s.tp = 0 ∧ exhausted s = true) := by
    rintro ⟨ht, he⟩
    cases hg : s.prog with
    | nil => rw [hg] at hd; simp [decode] at hd
    | cons c r => simp only [exhausted, hg, List.isEmpty_cons, Bool.or_false, decide_eq_true_eq] at he; omega
  simp [runStep, hx, hd, Nat.not_le.mpr hp]

/-! ### Running -/

theorem runSteps_zero (s : State) : runSteps 0 s = .next s := rfl

theorem runSteps_succ (k : Nat) (s : State) : runSteps (k + 1) s = andThen (step s) (runSteps k) := by
  show Host.Core.run Sys2Proof.core (k + 1) s = _
  simp only [Host.Core.run, Sys2Proof.core]
  cases step s <;> rfl

theorem runSteps_add (j k : Nat) (s : State) :
    runSteps (j + k) s = andThen (runSteps j s) (runSteps k) := by
  induction j generalizing s with
  | zero => simp [runSteps_zero]
  | succ j ih =>
    rw [Nat.add_right_comm, runSteps_succ, runSteps_succ]
    cases step s <;> simp [ih]

/-- An invariant that every step keeps holds after every run from a state that has it. -/
theorem runSteps_invariant {P : State → Prop} (hstep : ∀ s t, P s → step s = .next t → P t) :
    ∀ (k : Nat) (s t : State), P s → runSteps k s = .next t → P t := by
  intro k
  induction k with
  | zero => intro s t hs h; cases h; exact hs
  | succ k ih =>
    intro s t hs h
    rw [runSteps_succ, andThen_eq_next] at h
    obtain ⟨u, hu, h⟩ := h
    exact ih u t (hstep s u hs hu) h

/-! ### Where a table word is placed -/

theorem openWindow_window (s : State) : (openWindow s).pos < (openWindow s).re := by
  unfold openWindow; split
  next h => exact h.2.1
  next => exact Nat.zero_lt_succ 7

theorem openWindow_frame (s : State) :
    (openWindow s).prog = s.prog ∧ (openWindow s).tp = s.tp ∧ (openWindow s).status = s.status ∧
      (openWindow s).hostIn = s.hostIn := by
  unfold openWindow; split <;> simp

/-- The step after `withFetchWord` runs the instruction the decoder reads from the table word (log 3). -/
theorem step_withFetchWord {s : State} {nbits w : Nat} {i : Instr} {q : Nat}
    (h : decode (tableText nbits w) 0 = .command i q) :
    step (s.withFetchWord nbits w) = runCommand i q (s.withFetchWord nbits w) := by
  obtain ⟨hp, ht, hs, hh⟩ := openWindow_frame (atTextStart (tableText nbits w) s)
  unfold State.withFetchWord
  rw [step_run ⟨hs, hh⟩]
  refine runStep_command (openWindow_window _) ?_
  rw [hp, ht]; exact h

end Sys2Proof.Machine
end

