-- ==== Sys2Proof/Tests/Slice0.lean ====
section
/-! SUPPORT. The model's own tests: the well-formedness smoke test, words written out from the spec's
encodings, one step of each command with the result a vector of spec/95_test_vectors.md gives, and for
every obligation with hypotheses a concrete case that meets them. -/

namespace Sys2Proof.Tests

open Sys2Proof Sys2Proof.Machine

/-! ### Helpers -/

/-- The next state, if there is one. -/
def after : Result → Option State
  | .next s => some s
  | .fault _ => none
  | .refused _ => none

/-- A run at the start of a text on the whole of an input. -/
def running (inb : Bytes) (prog : Text) : State :=
  { State.reset with inb := inb, prog := prog, status := .busy, rs := 0, re := 8 * inb.length }

/-- OUT and the cursor after one command on the whole of an input. -/
def outPos (i : Instr) (inb : Bytes) : Option (Bits × Nat) :=
  (after (exec i (running inb []))).map (fun t => (t.out, t.pos))

/-- W after one chain command. -/
def workAfter (i : Instr) (w : Bits) : Option Bits :=
  (after (exec i { State.reset with work := w })).map (fun t => t.work)

/-- Status and error code after one step. -/
def statusErr (s : State) : Option (Status × Fin 8) := (after (step s)).map (fun t => (t.status, t.err))

/-- The window `[4, 12)` of two bytes with the cursor inside it. -/
def windowed : State :=
  { running [0xA5#8, 0x0F#8] [0x74#8, 0x34#8] with rs := 4, re := 12, pos := 5, out := [true] }

/-- A whole-text scan's commands, if the text is well-formed. -/
def commandsOf? (text : Text) : Option (List Instr) :=
  match commandsOf text with
  | .ok is => some is
  | .error _ => none

/-- The error a whole text's scan raises, if any. -/
def errorOf? (text : Text) : Option ErrorKind :=
  match commandsOf text with
  | .ok _ => none
  | .error k => some k

/-- The error of one top-level command, if any. -/
def cmdError? (c : Byte) (s : Text) : Option ErrorKind :=
  match decodeCmd c s with
  | .ok _ => none
  | .error k => some k

/-- The error of one chain command, if any. -/
def chainCmdError? (c : Byte) (s : Text) : Option ErrorKind :=
  match decodeChainCmd c s with
  | .ok _ => none
  | .error k => some k

/-- A chain's commands, if its text is well-formed. -/
def chainOf? (text : Text) : Option (List ChainCmd) :=
  match decodeChain text with
  | .ok ks => some ks
  | .error _ => none

/-- A chain's error, if any. -/
def chainError? (text : Text) : Option ErrorKind :=
  match decodeChain text with
  | .ok _ => none
  | .error k => some k

/-- A pattern's bits, if its text is one. -/
def patternBits? (text : Text) : Option Bits :=
  match makePattern text with
  | .ok p => some p.bits
  | .error _ => none

/-- A pattern text's error, if any. -/
def patternError? (text : Text) : Option ErrorKind :=
  match makePattern text with
  | .ok _ => none
  | .error k => some k

/-- The window of a range, if it is one. -/
def rangeOf? (a e : Int) (len : Nat) : Option (Nat × Nat) :=
  match normaliseRange a e len with
  | .ok w => some w
  | .error _ => none

/-! ### Well-formedness smoke test: the one check, with a term it refuses (R68, R54) -/

theorem test_wf_refuses_byteSwap_7 : Instr.wf (.byteSwap 7) = false := by decide
theorem test_wf_accepts_byteSwap_16 : Instr.wf (.byteSwap 16) = true := by decide

/-! ### Decoding: words written out from the formats of R54 to R59 with the codes of R49 -/

/-- `t12` -/
theorem test_decode_take : decode [0x74#8, 0x31#8, 0x32#8] 0 = .command (.take 12) 3 := by decide
/-- `s007` -/
theorem test_decode_skip : decode [0x73#8, 0x30#8, 0x30#8, 0x37#8] 0 = .command (.skip 7) 4 := by decide
/-- `i10t4` -/
theorem test_decode_insert : decode [0x69#8, 0x31#8, 0x30#8, 0x74#8, 0x34#8] 0 = .command (.insert [true, false]) 3 := by decide
/-- `it8` -/
theorem test_decode_insert_empty : decode [0x69#8, 0x74#8, 0x38#8] 0 = .command (.insert []) 1 := by decide
/-- `n5` -/
theorem test_decode_invert : decode [0x6E#8, 0x35#8] 0 = .command (.invert 5) 2 := by decide
/-- `t8v9` -/
theorem test_decode_reverseBits : decode [0x74#8, 0x38#8, 0x76#8, 0x39#8] 2 = .command (.reverseBits 9) 4 := by decide
/-- `b16` -/
theorem test_decode_byteSwap : decode [0x62#8, 0x31#8, 0x36#8] 0 = .command (.byteSwap 16) 3 := by decide
/-- `x3:101` -/
theorem test_decode_logicXor : decode [0x78#8, 0x33#8, 0x3A#8, 0x31#8, 0x30#8, 0x31#8] 0 = .command (.logicXor 3 ⟨true, [false, true]⟩) 6 := by decide
/-- `a4:0` -/
theorem test_decode_logicAnd : decode [0x61#8, 0x34#8, 0x3A#8, 0x30#8] 0 = .command (.logicAnd 4 ⟨false, []⟩) 4 := by decide
/-- `o5:1t1` -/
theorem test_decode_logicOr : decode [0x6F#8, 0x35#8, 0x3A#8, 0x31#8, 0x74#8, 0x31#8] 0 = .command (.logicOr 5 ⟨true, []⟩) 4 := by decide
/-- `[nx:1]8` -/
theorem test_decode_block : decode [0x5B#8, 0x6E#8, 0x78#8, 0x3A#8, 0x31#8, 0x5D#8, 0x38#8] 0 = .command (.block [.invert, .logical .xor ⟨true, []⟩] 8) 7 := by decide
/-- chain `n` -/
theorem test_decodeChain_invert : chainOf? [0x6E#8] = some [.invert] := by decide
/-- chain `v` -/
theorem test_decodeChain_reverseBits : chainOf? [0x76#8] = some [.reverseBits] := by decide
/-- chain `b` -/
theorem test_decodeChain_byteSwap : chainOf? [0x62#8] = some [.byteSwap] := by decide
/-- chain `x:10` -/
theorem test_decodeChain_xor : chainOf? [0x78#8, 0x3A#8, 0x31#8, 0x30#8] = some [.logical .xor ⟨true, [false]⟩] := by decide
/-- chain `a:0` -/
theorem test_decodeChain_and : chainOf? [0x61#8, 0x3A#8, 0x30#8] = some [.logical .and ⟨false, []⟩] := by decide
/-- chain `o:01` -/
theorem test_decodeChain_or : chainOf? [0x6F#8, 0x3A#8, 0x30#8, 0x31#8] = some [.logical .or ⟨false, [true]⟩] := by decide
/-- `t` -/
theorem test_error_empty_count : decode [0x74#8] 0 = .bad .invalidArgument := by decide
/-- `b12` -/
theorem test_error_byteSwap_12 : decode [0x62#8, 0x31#8, 0x32#8] 0 = .bad .invalidArgument := by decide
/-- `i2` -/
theorem test_error_literal_2 : decode [0x69#8, 0x32#8] 0 = .bad .invalidArgument := by decide
/-- `x8:1:0` -/
theorem test_error_two_colons : decode [0x78#8, 0x38#8, 0x3A#8, 0x31#8, 0x3A#8, 0x30#8] 0 = .bad .invalidArgument := by decide
/-- `x8:` -/
theorem test_error_empty_pattern : decode [0x78#8, 0x38#8, 0x3A#8] 0 = .bad .invalidPattern := by decide
/-- `x8:1]` -/
theorem test_error_close_in_pattern : decode [0x78#8, 0x38#8, 0x3A#8, 0x31#8, 0x5D#8] 0 = .bad .invalidPattern := by decide
/-- `[n8` -/
theorem test_error_open_bracket : decode [0x5B#8, 0x6E#8, 0x38#8] 0 = .bad .mismatchedBrackets := by decide
/-- `[t]` -/
theorem test_error_no_block_count : decode [0x5B#8, 0x74#8, 0x5D#8] 0 = .bad .missingBlockCount := by decide
/-- `[tz]8` -/
theorem test_error_take_in_block : decode [0x5B#8, 0x74#8, 0x7A#8, 0x5D#8, 0x38#8] 0 = .bad .disallowedInBlock := by decide
/-- `[zt]8` -/
theorem test_error_unknown_in_block : decode [0x5B#8, 0x7A#8, 0x74#8, 0x5D#8, 0x38#8] 0 = .bad .unknownCommand := by decide
/-- `T8` -/
theorem test_error_upper_case : decode [0x54#8, 0x38#8] 0 = .bad .unknownCommand := by decide
/-- `n8]` -/
theorem test_error_stray_close : decode [0x6E#8, 0x38#8, 0x5D#8] 2 = .bad .unknownCommand := by decide

/-! ### The encoder and the table words -/

/-- `[vx:10]16` -/
theorem test_encode_block :
    encode (.block [.reverseBits, .logical .xor ⟨true, [false]⟩] 16) = [0x5B#8, 0x76#8, 0x78#8, 0x3A#8, 0x31#8, 0x30#8, 0x5D#8, 0x31#8, 0x36#8] := by decide
/-- `b160` -/
theorem test_encode_byteSwap : encode (.byteSwap 160) = [0x62#8, 0x31#8, 0x36#8, 0x30#8] := by decide
/-- The word of row `t` alone, with the zero operand of log 4. -/
theorem test_tableWord_take : decodeTableWord 8 0x74 = some (.take 0) := by decide
/-- The word of row `[` alone, with the zero operand of log 4. -/
theorem test_tableWord_block : decodeTableWord 8 0x5B = some (.block [] 0) := by decide
/-- `n8` as one 16-bit word, the first character in bits 7..0. -/
theorem test_tableWord_invert_8 : decodeTableWord 16 0x386E = some (.invert 8) := by decide
theorem test_tableWord_unknown : decodeTableWord 8 0x7A = none := by decide
/-- The first step after reset on a table word runs it: `n8` inverts the zero byte of log 3. -/
theorem test_withFetchWord_runs :
    (after (step (State.reset.withFetchWord 16 0x386E))).map (fun t => (t.out, t.tp)) =
      some (List.replicate 8 true, 2) := by decide

/-! ### The units (vectors 2.1 to 2.3) -/

theorem test_pack_A5_01 : packToBits [0xA5#8, 0x01#8] =
    [true, false, true, false, false, true, false, true, false, false, false, false, false, false, false, true] := by
  decide
theorem test_unpack_pads_low_end : unpackFromBits [true, false, true] = [0xA0#8] := by decide
theorem test_unpack_nine_bits : unpackFromBits (List.replicate 9 true) = [0xFF#8, 0x80#8] := by decide
/-- 20 bits: two whole bytes swapped, the remainder `0011` stays last. -/
theorem test_bswap_remainder_last :
    bswap (packToBits [0x01#8, 0x02#8] ++ [false, false, true, true]) =
      packToBits [0x02#8, 0x01#8] ++ [false, false, true, true] := by decide
theorem test_brev_eleven : brev (packToBits [0xB0#8] ++ [true, false, true]) =
    packToBits [0xA1#8] ++ [true, false, true] := by decide
theorem test_bitAt_wraps : (List.range 8).map (bitAt ⟨true, [false, true]⟩) =
    [true, false, true, true, false, true, true, false] := by decide

/-! ### One step of each command (vectors 2.4 to 2.6) -/

/-- `t12` on `[AB CD]`: the first execution reads 12 bits. -/
theorem test_take : outPos (.take 12) [0xAB#8, 0xCD#8] = some ((packToBits [0xAB#8, 0xCD#8]).take 12, 12) := by
  decide
/-- `t100` on `[AB CD]`: clamped to 16 bits (E3). -/
theorem test_take_clamps : outPos (.take 100) [0xAB#8, 0xCD#8] = some (packToBits [0xAB#8, 0xCD#8], 16) := by
  decide
/-- `s100`: the cursor at RE, no output. -/
theorem test_skip_clamps : outPos (.skip 100) [0xAB#8, 0xCD#8] = some ([], 16) := by decide
/-- `i10`: the literal, the cursor where it was. -/
theorem test_insert : outPos (.insert [true, false]) [0xFF#8] = some ([true, false], 0) := by decide
/-- `n16` on `[B0 0F]` gives `[4F F0]`. -/
theorem test_invert : outPos (.invert 16) [0xB0#8, 0x0F#8] = some (packToBits [0x4F#8, 0xF0#8], 16) := by decide
/-- `v16` on `[01 02]` gives `[40 80]`. -/
theorem test_reverseBits : outPos (.reverseBits 16) [0x01#8, 0x02#8] = some (packToBits [0x40#8, 0x80#8], 16) := by
  decide
/-- `b32` on `[01 02 03 04]` gives `[04 03 02 01]` (E5). -/
theorem test_byteSwap : outPos (.byteSwap 32) [0x01#8, 0x02#8, 0x03#8, 0x04#8] =
    some (packToBits [0x04#8, 0x03#8, 0x02#8, 0x01#8], 32) := by decide
/-- `b32` on `[01 02 03]`: clamped to 24, still whole bytes. -/
theorem test_byteSwap_clamps : outPos (.byteSwap 32) [0x01#8, 0x02#8, 0x03#8] =
    some (packToBits [0x03#8, 0x02#8, 0x01#8], 24) := by decide
/-- `x16:101` on `[DE AD]` gives `[68 76]`. -/
theorem test_logicXor : outPos (.logicXor 16 ⟨true, [false, true]⟩) [0xDE#8, 0xAD#8] =
    some (packToBits [0x68#8, 0x76#8], 16) := by decide
/-- `a8:11110000` on `[DE]` gives `[D0]`. -/
theorem test_logicAnd : outPos (.logicAnd 8 ⟨true, [true, true, true, false, false, false, false]⟩) [0xDE#8] =
    some (packToBits [0xD0#8], 8) := by decide
/-- `o8:00001111` on `[DE]` gives `[DF]`. -/
theorem test_logicOr : outPos (.logicOr 8 ⟨false, [false, false, false, true, true, true, true]⟩) [0xDE#8] =
    some (packToBits [0xDF#8], 8) := by decide
/-- `[va:11110000]8` on `[B0]` gives `[00]`: the chain's order. -/
theorem test_block_order : outPos (.block [.reverseBits,
      .logical .and ⟨true, [true, true, true, false, false, false, false]⟩] 8) [0xB0#8] =
    some (packToBits [0x00#8], 8) := by decide
/-- `[a:11110000v]8` on `[B0]` gives `[0D]`. -/
theorem test_block_other_order : outPos (.block [
      .logical .and ⟨true, [true, true, true, false, false, false, false]⟩, .reverseBits] 8) [0xB0#8] =
    some (packToBits [0x0D#8], 8) := by decide
theorem test_chainInvert : workAfter .chainInvert (packToBits [0xB0#8]) = some (packToBits [0x4F#8]) := by decide
theorem test_chainReverseBits :
    workAfter .chainReverseBits (packToBits [0xB0#8]) = some (packToBits [0x0D#8]) := by decide
/-- No multiple-of-8 check in a chain (R115): 12 bits, one byte and a remainder, unchanged. -/
theorem test_chainByteSwap_12 : workAfter .chainByteSwap ((packToBits [0x12#8, 0x34#8]).take 12) =
    some ((packToBits [0x12#8, 0x34#8]).take 12) := by decide
/-- The chain's `x`, `a`, `o` on `[DE]` as the top level's (`x8:10`, `a8:0`, `o8:1`). -/
theorem test_chainXor : workAfter (.chainXor ⟨true, [false]⟩) (packToBits [0xDE#8]) =
    some (packToBits [0x74#8]) := by decide
theorem test_chainAnd : workAfter (.chainAnd ⟨false, []⟩) (packToBits [0xDE#8]) =
    some (packToBits [0x00#8]) := by decide
theorem test_chainOr : workAfter (.chainOr ⟨true, []⟩) (packToBits [0xDE#8]) =
    some (packToBits [0xFF#8]) := by decide

/-! ### The sequencer and the host, one step each -/

/-- `b7` ends the run with InvalidArgument, code 2 (E8). -/
theorem test_step_error_b7 : statusErr (running [0xFF#8] [0x62#8, 0x37#8]) = some (.doneErr, 2) := by decide
/-- `z5` on an empty input: nothing is decoded, the run ends well (E8, D5). -/
theorem test_step_empty_input : statusErr (running [] [0x7A#8, 0x35#8]) = some (.doneOk, 0) := by decide
/-- A malformed command is found before the window's end is tested: `t8z5` (D5). -/
theorem test_step_decode_before_test :
    statusErr { running [0xFF#8] [0x74#8, 0x38#8, 0x7A#8, 0x35#8] with pos := 8, tp := 2 } = some (.doneErr, 7) := by decide
/-- The early stop: `t8t8z5` is over at the second `t8` (D5). -/
theorem test_step_early_stop :
    (after (step { running [0xFF#8] [0x74#8, 0x38#8, 0x74#8, 0x38#8, 0x7A#8, 0x35#8] with pos := 8, tp := 2, out := packToBits [0xFF#8] })).map
      (fun t => (t.status, t.outb, t.outNbytes, t.pass)) = some (.doneOk, [0xFF#8], 1, 1) := by decide
/-- The end of the text with bits left starts the next pass. -/
theorem test_step_next_pass :
    (after (step { running [0xAB#8] [0x74#8, 0x34#8] with pos := 4, tp := 2 })).map (fun t => (t.status, t.tp, t.pass)) =
      some (.busy, 0, 1) := by decide
/-- Range vectors 2.8: `3,11`; `8,8`; `24,25`; and the three errors. -/
theorem test_range_windows : rangeOf? 3 11 24 = some (3, 11) ∧ rangeOf? 8 8 24 = some (8, 8) ∧
    rangeOf? 24 25 24 = some (24, 24) ∧ rangeOf? 0 (-5) 24 = some (0, 24) := by decide
theorem test_range_errors : rangeOf? 25 0 24 = none ∧ rangeOf? (-1) 0 24 = none ∧ rangeOf? 4 2 24 = none := by
  decide
/-- GO with `start = 4`, `end = 2` (E9). -/
theorem test_go_range_error :
    statusErr { State.reset with argStart := 4, argEnd := 2, hostIn := [.go] } = some (.doneErr, 1) := by decide
/-- GO on `[A1 B2 C3]` with `8, 16`. -/
theorem test_go_window :
    (after (step { State.reset with
      inb := [0xA1#8, 0xB2#8, 0xC3#8], argStart := 8, argEnd := 16, hostIn := [.go] })).map
      (fun t => (t.status, t.rs, t.re, t.pos)) = some (.busy, 8, 16, 8) := by decide
/-- A host write while BUSY is refused (R141). -/
theorem test_host_write_while_busy :
    after (step { running [0xFF#8] [] with hostIn := [.writeInb []] }) = none := by decide
theorem test_verbose_trace :
    (after (step { running [0xB0#8] [0x6E#8, 0x38#8] with verbose := true })).map (fun t => t.trace) =
      some [⟨0, .invert 8⟩] := by decide

/-! ### Witnesses: a case that meets every hypothesis of each obligation -/

theorem witness_DecodeOfEncodeIsTheCommand : 
    ((Instr.byteSwap 16).topLevel = true ∧ (Instr.byteSwap 16).wf = true ∧
      decode ([0x74#8, 0x31#8] ++ encode (.byteSwap 16) ++ []) 2 = .command (.byteSwap 16) 5) ∧
    ((Instr.insert []).topLevel = true ∧ (Instr.insert []).wf = true ∧ isCmdStart 0x5B#8 = true ∧
      decode ([] ++ encode (.insert []) ++ [0x5B#8, 0x5D#8, 0x30#8]) 0 = .command (.insert []) 1) := by decide
theorem witness_CommandsOfEncodedProgram : 
    (∀ i ∈ [Instr.insert [true], .take 8, .block [.byteSwap] 7], i.topLevel = true ∧ i.wf = true) ∧
    commandsOf? (([Instr.insert [true], .take 8, .block [.byteSwap] 7]).flatMap encode) =
      some [.insert [true], .take 8, .block [.byteSwap] 7] := by decide
theorem witness_DecodeMovesForward : 
    decode [0x74#8, 0x34#8, 0x69#8] 0 = .command (.take 4) 2 ∧ decode [0x74#8, 0x34#8, 0x69#8] 2 = .command (.insert []) 3 := by decide
theorem witness_ScanIsRepeatedDecode : 
    decode [0x74#8, 0x34#8] 2 = .endOfText ∧ decode [0x7A#8, 0x35#8] 0 = .bad .unknownCommand ∧ decode [0x74#8, 0x34#8] 0 = .command (.take 4) 2 := by decide
theorem witness_DigitRunEndsAtFirstNonDigit : 
    (0 ≤ 3 ∧ digitRun [0x34#8, 0x32#8, 0x74#8] = [0x34#8, 0x32#8]) ∧ digitRun (([0x34#8, 0x32#8, 0x74#8] : Text).drop 3) = [] := by decide
theorem witness_ArgRunEndsAtFirstCommandStart : 
    (0 ≤ 4 ∧ argRun [0x38#8, 0x3A#8, 0x31#8, 0x5D#8] = [0x38#8, 0x3A#8, 0x31#8, 0x5D#8]) ∧ argRun (([0x38#8, 0x3A#8, 0x31#8, 0x5D#8] : Text).drop 4) = [] ∧ (argRun [0x31#8, 0x30#8, 0x7A#8, 0x74#8]).length = 3 ∧ argRun [0x62#8, 0x31#8, 0x30#8] = [] := by decide
theorem witness_UnknownCommandExactly : 
    isCmdStart 0x7A#8 = false ∧ cmdError? 0x7A#8 [0x35#8] = some .unknownCommand ∧ isCmdStart 0x5D#8 = false ∧
    cmdError? chOpen [0x7A#8, 0x5D#8, 0x38#8] = some .unknownCommand ∧ chainCmdError? 0x38#8 [] = some .unknownCommand := by decide
theorem witness_DisallowedInBlockExactly : 
    chainCmdError? chT [] = some .disallowedInBlock ∧ chainCmdError? chS [0x38#8] = some .disallowedInBlock ∧
    chainCmdError? chI [0x31#8] = some .disallowedInBlock ∧
    chainError? (encodeChain [.invert, .logical .or ⟨true, []⟩] ++ chI :: [0x31#8]) = some .disallowedInBlock := by decide
theorem witness_MismatchedBracketsExactly : 
    decode [0x5B#8, 0x6E#8, 0x38#8] 0 = .bad .mismatchedBrackets ∧ decode [0x5D#8, 0x5B#8, 0x6E#8] 1 = .bad .mismatchedBrackets ∧
    ([0x6E#8, 0x38#8, 0x5D#8] : Text)[2]? = some chClose ∧ decode [0x6E#8, 0x38#8, 0x5D#8] 2 = .bad .unknownCommand := by decide
theorem witness_MissingBlockCountExactly : 
    decode [0x5B#8, 0x6E#8, 0x5D#8] 0 = .bad .missingBlockCount ∧ decode [0x5B#8, 0x6E#8, 0x5D#8, 0x20#8, 0x38#8] 0 = .bad .missingBlockCount ∧
    decode [0x5B#8, 0x5D#8, 0x38#8] 0 = .command (.block [] 8) 3 := by decide
theorem witness_InvalidArgumentExactly : 
    cmdError? chT [] = some .invalidArgument ∧ cmdError? chS [0x78#8] = some .invalidArgument ∧
    cmdError? chN [0x30#8] = none ∧ cmdError? chV [0x39#8, 0x74#8] = none ∧ cmdError? chB [0x31#8, 0x32#8] = some .invalidArgument ∧
    cmdError? chB [0x31#8, 0x36#8] = none ∧ cmdError? chI [0x31#8, 0x30#8, 0x7A#8] = some .invalidArgument ∧
    cmdError? chX [0x38#8, 0x3A#8, 0x3A#8, 0x31#8] = some .invalidArgument ∧ cmdError? chA [0x3A#8, 0x31#8] = some .invalidArgument ∧
    cmdError? chO [0x38#8, 0x3A#8, 0x31#8] = none ∧ chainCmdError? chX [] = some .invalidArgument ∧
    chainCmdError? chA [0x38#8, 0x3A#8, 0x31#8] = some .invalidArgument ∧ chainCmdError? chO [0x3A#8, 0x31#8, 0x6E#8] = none ∧
    cmdError? chOpen [0x78#8, 0x5D#8, 0x38#8] = some .invalidArgument ∧ cmdError? chOpen [0x78#8, 0x5D#8] = some .missingBlockCount ∧
    isCmdStart 0x7A#8 = false ∧ chT ∉ [chX, chA, chO] := by decide
theorem witness_InvalidPatternExactly : 
    patternError? [] = some .invalidPattern ∧ patternError? [0x31#8, 0x32#8] = some .invalidPattern ∧
    patternBits? [0x31#8, 0x30#8] = some [true, false] ∧ cmdError? chX [0x38#8, 0x3A#8] = some .invalidPattern ∧
    cmdError? chA [0x38#8, 0x3A#8, 0x31#8, 0x32#8] = some .invalidPattern ∧ cmdError? chO [0x38#8, 0x3A#8, 0x31#8, 0x5D#8] = some .invalidPattern ∧
    chainCmdError? chX [0x3A#8] = some .invalidPattern ∧ chainCmdError? chA [0x3A#8, 0x32#8] = some .invalidPattern ∧
    chainCmdError? chO [0x3A#8, 0x30#8] = none := by decide
theorem witness_FirstChainErrorWins : 
    (isCmdStart chT = true ∧ chainCmdError? chT [] = some .disallowedInBlock ∧
      chainError? (encodeChain [.logical .xor ⟨true, []⟩] ++ chT :: [0x7A#8]) = some .disallowedInBlock) ∧
    ([ChainCmd.invert].getLast? = some .invert ∧ chainCmdError? 0x7A#8 [0x74#8] = some .unknownCommand ∧
      chainError? (encodeChain [.invert] ++ 0x7A#8 :: [0x74#8]) = some .unknownCommand) ∧
    (([0x6E#8, 0x69#8, 0x31#8, 0x5D#8, 0x38#8] : Text).contains chClose = true ∧ digitRun (afterClose [0x6E#8, 0x69#8, 0x31#8, 0x5D#8, 0x38#8]) ≠ [] ∧
      cmdError? chOpen [0x6E#8, 0x69#8, 0x31#8, 0x5D#8, 0x38#8] = some .disallowedInBlock ∧ cmdError? chOpen [0x78#8, 0x3A#8, 0x5D#8, 0x38#8] = some .invalidPattern) := by decide
theorem witness_PackToBitsFormula : 
    7 < 8 * ([0x01#8] : Bytes).length ∧ (packToBits [0x01#8])[7]? = some true ∧ (packToBits [0x01#8])[0]? = some false := by decide
theorem witness_UnpackFromBitsFormula : 
    (0 < ([true, false, true] : Bits).length + 7) ∧ 0 < (([true, false, true] : Bits).length + 7) / 8 ∧
    ((unpackFromBits [true, false, true]).getD (2 / 8) 0).getLsbD (7 - 2 % 8) = true ∧
    (([true, false, true] : Bits).length ≤ 3 ∧ 7 / 8 < (([true, false, true] : Bits).length + 7) / 8) ∧
    ((unpackFromBits [true, false, true]).getD (3 / 8) 0).getLsbD (7 - 3 % 8) = false := by decide
theorem witness_PackOfUnpackAddsPadZeros : 
    ([true, false, true] : Bits).length % 8 ≠ 0 ∧
    packToBits (unpackFromBits [true, false, true]) = [true, false, true, false, false, false, false, false] := by decide
theorem witness_BitReversalFormula : 
    2 < ([true, false, false] : Bits).length ∧ (brev [true, false, false])[2]? = some true := by decide
theorem witness_ByteSwapFormula : 
    (15 < 8 * ((packToBits [0x01#8, 0x02#8] ++ [true]).length / 8) ∧
      (bswap (packToBits [0x01#8, 0x02#8] ++ [true]))[15]? = some true) ∧
    (8 * ((packToBits [0x01#8, 0x02#8] ++ [true]).length / 8) ≤ 16 ∧
      16 < (packToBits [0x01#8, 0x02#8] ++ [true]).length ∧
      (bswap (packToBits [0x01#8, 0x02#8] ++ [true]))[16]? = some true) := by decide
theorem witness_MaskFormula : 
    ([true, true, false] : Bits)[2]? = some false ∧
    (mask .xor [true, true, false] ⟨true, [false]⟩)[2]? = some true := by decide
theorem witness_UnitAlgebraAndChainOrder : 
    (List.replicate 15 true).length < 16 ∧ (packToBits [0x01#8, 0x02#8]).length % 8 = 0 := by decide
theorem witness_TakeRule : 
    (([0x30#8, 0x38#8] : Text) ≠ [] ∧ ([0x30#8, 0x38#8] : Text).all isDigit = true) ∧ isDigit 0x74#8 = false ∧ windowOk windowed ∧ windowed.pos < windowed.re ∧
    (after (exec (.take 3) windowed)).map (fun t => (t.out, t.pos)) = some ([true, true, false, true], 8) := by decide
theorem witness_SkipRule : 
    (([0x30#8, 0x38#8] : Text) ≠ [] ∧ ([0x30#8, 0x38#8] : Text).all isDigit = true) ∧ isDigit 0x74#8 = false ∧ (after (exec (.skip 100) windowed)).map (fun t => t.pos) = some 12 := by decide
theorem witness_InsertRule : 
    isCmdStart 0x74#8 = true ∧ (∃ c ∈ argRun [0x31#8, 0x32#8, 0x74#8], isBin c = false) ∧
    (after (exec (.insert [true, false]) windowed)).map (fun t => t.out) = some [true, true, false] := by decide
theorem witness_InvertRule : 
    ([true, false] : Bits)[1]? = some false ∧ (([0x30#8, 0x38#8] : Text) ≠ [] ∧ ([0x30#8, 0x38#8] : Text).all isDigit = true) ∧ isDigit 0x74#8 = false ∧ windowOk windowed ∧
    (after (exec (.invert 3) windowed)).map (fun t => (t.out, t.pos)) = some ([true, false, true, false], 8) := by decide
theorem witness_ReverseBitsRule : 
    (([0x30#8, 0x38#8] : Text) ≠ [] ∧ ([0x30#8, 0x38#8] : Text).all isDigit = true) ∧ isDigit 0x74#8 = false ∧ windowOk windowed ∧ windowed.pos < windowed.re ∧
    (after (exec (.reverseBits 2) windowed)).map (fun t => (t.out, t.pos)) = some ([true, false, true], 7) := by decide
theorem witness_ByteSwapRule : 
    (([0x30#8, 0x38#8] : Text) ≠ [] ∧ ([0x30#8, 0x38#8] : Text).all isDigit = true) ∧ decVal [0x30#8, 0x38#8] % 8 = 0 ∧ decVal [0x31#8, 0x32#8] % 8 ≠ 0 ∧ isDigit 0x74#8 = false ∧ windowOk windowed ∧
    (after (exec (.byteSwap 8) windowed)).map (fun t => t.pos) = some 12 := by decide
theorem witness_LogicalRules : 
    (([0x30#8, 0x38#8] : Text) ≠ [] ∧ ([0x30#8, 0x38#8] : Text).all isDigit = true) ∧ isDigit 0x74#8 = false ∧ windowOk windowed ∧ windowed.pos < windowed.re ∧
    isCmdStart 0x74#8 = true ∧ (after (exec (.logicXor 2 ⟨true, []⟩) windowed)).map (fun t => t.out) = some [true, false, true] := by decide
theorem witness_BlockRule : 
    (([0x30#8, 0x38#8] : Text) ≠ [] ∧ ([0x30#8, 0x38#8] : Text).all isDigit = true) ∧ isDigit 0x74#8 = false ∧ windowOk windowed ∧ windowed.pos < windowed.re ∧
    (after (exec (.block [.invert, .reverseBits] 2) windowed)).map (fun t => (t.out, t.work)) = some ([true, true, false], []) := by decide
theorem witness_ChainCommandRules : isCmdStart 0x6E#8 = true := by decide
theorem witness_ExecuteFollowsTheCommandTable : 
    (Instr.block [.invert] 9).topLevel = true ∧ windowOk windowed ∧ windowed.work = [] := by decide
theorem witness_CommandFrame : 
    (after (exec (.block [.invert] 2) windowed)).isSome = true ∧ (Instr.take 1).topLevel = true ∧
    (after (exec (.take 1) windowed)).isSome = true ∧ 0 < windowed.out.length := by decide
theorem witness_StepRunsTheDecodedCommand : 
    inRun windowed ∧ windowed.pos < windowed.re ∧ decode windowed.prog windowed.tp = .command (.take 4) 2 := by decide
theorem witness_StepRaisesTheDecodeError : 
    (inRun (running [0xFF#8] [0x7A#8, 0x35#8]) ∧ (running [0xFF#8] [0x7A#8, 0x35#8]).pos < (running [0xFF#8] [0x7A#8, 0x35#8]).re ∧
      decode (running [0xFF#8] [0x7A#8, 0x35#8]).prog 0 = .bad .unknownCommand) ∧
    (inRun { running [0xFF#8] [0x74#8, 0x38#8, 0x7A#8, 0x35#8] with pos := 8, tp := 2 } ∧ decode [0x74#8, 0x38#8, 0x7A#8, 0x35#8] 2 = .bad .unknownCommand) := by decide
theorem witness_StepEndsThePass : 
    (inRun { windowed with tp := 2 } ∧ windowed.prog ≠ [] ∧ windowed.prog.length ≤ 2 ∧ windowed.pos < windowed.re) ∧
    (inRun { windowed with tp := 2, pos := 12 } ∧ windowed.re ≤ 12) ∧
    (inRun { running [0xFF#8] [0x74#8, 0x38#8, 0x74#8, 0x38#8] with pos := 8, tp := 2 } ∧ decode [0x74#8, 0x38#8, 0x74#8, 0x38#8] 2 = .command (.take 8) 4) := by decide
theorem witness_ExhaustedRunReportsItsOutput : 
    (inRun { windowed with pos := 12 } ∧ windowed.tp = 0 ∧ windowed.re ≤ 12) ∧
    (inRun (running [0xFF#8] []) ∧ (running [0xFF#8] []).tp = 0 ∧ (running [0xFF#8] []).prog = []) := by decide
theorem witness_RangeNormalisation : 
    rangeOf? 24 0 24 = some (24, 24) ∧ rangeOf? 24 25 24 = some (24, 24) ∧ rangeOf? 24 24 24 = some (24, 24) ∧
    rangeOf? 1 1 24 = some (1, 1) ∧ rangeOf? 0 1 24 = some (0, 1) ∧ rangeOf? (-1) 5 24 = none ∧
    rangeOf? 25 5 24 = none ∧ rangeOf? 2 1 24 = none := by decide
theorem witness_GoTakesTheStartValues : 
    ({ windowed with status := .doneOk, hostIn := [.go], argStart := 3, argEnd := 11 } : State).status ≠ .busy ∧
    rangeOf? 3 11 (8 * windowed.inb.length) = some (3, 11) ∧
    (after (step { windowed with status := .doneOk, hostIn := [.go], argStart := 3, argEnd := 11 })).map
      (fun t => (engineState t, t.pos)) = some (.running, 3) := by decide
theorem witness_RangeErrorExactly : 
    ({ State.reset with hostIn := [.go], argStart := 4, argEnd := 2 } : State).status ≠ .busy ∧
    rangeOf? 4 2 (8 * State.reset.inb.length) = none ∧ rangeOf? (-1) 0 0 = none ∧ rangeOf? 0 0 0 = some (0, 0) ∧
    (after (step { windowed with status := .doneOk, hostIn := [.go], argStart := 17 })).map
      (fun t => (t.err, t.out, t.inb, t.argStart)) = some (1, [], [0xA5#8, 0x0F#8], 17) ∧
    inRun windowed ∧ windowed.err = 0 ∧ (after (step windowed)).map (fun t => t.err) = some 0 := by decide
theorem witness_CursorStaysInTheWindow : 
    inRun windowed ∧ windowOk windowed ∧ (after (step windowed)).map (fun t => t.pos) = some 9 := by decide
theorem witness_OutputIsAppendOnly : 
    (inRun windowed ∧ (after (step windowed)).map (fun t => (t.status, t.out.length)) = some (.busy, 5)) ∧
    (inRun { windowed with pos := 12 } ∧
      (after (step { windowed with pos := 12 })).map (fun t => (t.status, t.outb)) = some (.doneOk, [0x80#8])) := by decide
theorem witness_RunsNeverWriteTheirInputs : 
    inRun windowed ∧ (after (runSteps 1 windowed)).map (fun t => t.inb) = some [0xA5#8, 0x0F#8] := by decide
theorem witness_TraceRecordsExecutedCommands : 
    (inRun { windowed with verboseOnce := true } ∧ windowed.pos < windowed.re ∧
      decode windowed.prog windowed.tp = .command (.take 4) 2 ∧
      (after (step { windowed with verboseOnce := true })).map (fun t => t.trace) = some [⟨0, .take 4⟩]) ∧
    (after (step { windowed with verboseOnce := true, pass := 1 })).map (fun t => t.trace) = some [] ∧
    (after (step windowed)).map (fun t => t.trace) = some [] ∧
    (after (step { windowed with verbose := true, tp := 2 })).map (fun t => t.trace) = some [] := by decide
theorem witness_HostWritesOnlyWhileNotBusy : 
    State.reset.status ≠ .busy ∧
    (after (step { State.reset with hostIn := [.writeArgEnd (-5)] })).map (fun t => (t.argEnd, t.hostIn)) =
      some (-5, []) ∧
    ({ windowed with hostIn := [.go] } : State).status = .busy ∧ HostReq.go ≠ .reset ∧
    after (step { windowed with hostIn := [.go] }) = none := by decide
theorem witness_ResetValuesFromEveryState : 
    (after (step { windowed with hostIn := [.reset, .go] })).map (fun t => (t.status, t.err, t.hostIn)) =
      some (.idle, 0, [.go]) := by decide
theorem witness_ResultsHoldBetweenRuns : 
    State.reset.hostIn = [] ∧ State.reset.status ≠ .busy := by decide

/-- A state with the invariant, in the middle of a run. -/
theorem windowed_inv : UnitInv windowed :=
  ⟨by decide, by decide, by decide, by decide, by decide, by decide⟩

theorem witness_EveryStepKeepsTheInvariant : UnitInv windowed ∧ (after (step windowed)).isSome = true :=
  ⟨windowed_inv, by decide⟩
theorem witness_RunsNeverStop : UnitInv windowed ∧ inRun windowed :=
  ⟨windowed_inv, by decide⟩
theorem witness_ProgramsThatConsumeTerminate : UnitInv windowed ∧ 
    (inRun windowed ∧ windowed.tp = 0 ∧ commandsOf? windowed.prog = some [.take 4] ∧
      (Instr.take 4).count? = some 4 ∧ 1 ≤ 4) :=
  ⟨windowed_inv, by decide⟩

/-- A nonempty window under a program that only inserts. -/
theorem stuck_inv : UnitInv { windowed with prog := [0x69#8, 0x31#8, 0x74#8, 0x30#8] } :=
  ⟨by decide, by decide, by decide, by decide, by decide, by decide⟩

theorem witness_ProgramsWithoutProgressNeverEnd : UnitInv { windowed with prog := [0x69#8, 0x31#8, 0x74#8, 0x30#8] } ∧
    (inRun { windowed with prog := [0x69#8, 0x31#8, 0x74#8, 0x30#8] } ∧ windowed.tp = 0 ∧ windowed.pos < windowed.re ∧
      commandsOf? [0x69#8, 0x31#8, 0x74#8, 0x30#8] = some [.insert [true], .take 0] ∧ (Instr.insert [true]).count? = none ∧
      (Instr.take 0).count? = some 0) :=
  ⟨stuck_inv, by decide⟩
theorem witness_RunIsTheParseOnceReplay : UnitInv windowed ∧ 
    (inRun windowed ∧ windowed.tp = 0 ∧ commandsOf? windowed.prog = some [.take 4] ∧
      replay windowed.inbits windowed.re [.take 4] 2 (windowed.pos, windowed.out) =
        some [true, true, false, true, false, false, false, false]) :=
  ⟨windowed_inv, by decide⟩
theorem witness_BitsOutsideTheWindowAreNeverRead : UnitInv windowed ∧ 
    (inRun windowed ∧ ([0x05#8, 0x00#8] : Bytes).length = windowed.inb.length ∧
      (∀ i, i < 12 → 4 ≤ i → (packToBits [0x05#8, 0x00#8])[i]? = windowed.inbits[i]?) ∧
      (after (runSteps 1 windowed)).isSome = true) :=
  ⟨windowed_inv, by decide⟩
theorem witness_ControlDoesNotDependOnData : UnitInv windowed ∧ 
    (inRun windowed ∧ ([0xFF#8, 0xFF#8] : Bytes).length = windowed.inb.length ∧
      (after (runSteps 1 windowed)).isSome = true) :=
  ⟨windowed_inv, by decide⟩
theorem witness_DiagnosticFlagsOnlyGateTheTrace : 
    inRun windowed ∧ (after (runSteps 1 { windowed with verbose := true })).map (fun t => (t.out.length, t.trace)) =
      some (5, [⟨0, .take 4⟩]) := by decide
theorem witness_SameArgumentsSameResult : 
    State.reset.status ≠ .busy ∧ ({ windowed with status := .doneErr } : State).status ≠ .busy ∧
    ({ windowed with inb := [], prog := [], status := .doneErr, hostIn := [.go] } : State).inb = State.reset.inb ∧
    (after (runSteps 1 { State.reset with hostIn := [.go] })).map (fun t => t.status) = some .busy ∧
    (after (runSteps 1 { windowed with inb := [], prog := [], status := .doneErr, hostIn := [.go] })).map
      (fun t => t.status) = some .busy := by decide

end Sys2Proof.Tests
end

/-! PROOFS. The state (10_state.md): what a command and a step leave unchanged, the invariant, and the
simulation of one run by another. -/

namespace Sys2Proof

/-! ### What a decoded command looks like (30_encoding.md R60, R68) -/

/-- What `Decode` promises of a command read from `s`: it takes no more characters than there are, it is
one of the ten top-level commands, and its fields are well-formed. -/
def ReadFrom (s : Text) (i : Instr) (used : Nat) : Prop :=
  used ≤ s.length ∧ i.topLevel = true ∧ i.wf = true

section Formats

variable {s : Text} {i : Instr} {used : Nat}

theorem decodeN_readFrom {mk : Nat → Instr} (hmk : ∀ n, (mk n).topLevel = true ∧ (mk n).wf = true)
    (h : decodeN mk s = .ok (i, used)) : ReadFrom s i used := by
  unfold decodeN at h
  split at h
  · cases h
  · cases h; exact ⟨digitRun_length_le s, hmk _⟩

theorem decodeByteSwap_readFrom (h : decodeByteSwap s = .ok (i, used)) : ReadFrom s i used := by
  unfold decodeByteSwap at h
  split at h
  · cases h
  · split at h
    · cases h
    next hm => cases h; exact ⟨digitRun_length_le s, rfl, by simpa [Instr.wf] using hm⟩

theorem decodeInsert_readFrom (h : decodeInsert s = .ok (i, used)) : ReadFrom s i used := by
  unfold decodeInsert at h
  split at h
  · cases h; exact ⟨argRun_length_le s, rfl, rfl⟩
  · cases h

theorem decodeL_readFrom {mk : Nat → Pattern → Instr}
    (hmk : ∀ n p, (mk n p).topLevel = true ∧ (mk n p).wf = true)
    (h : decodeL mk s = .ok (i, used)) : ReadFrom s i used := by
  unfold decodeL at h
  split at h
  · cases h
  · split at h
    · cases h
    · split at h
      · cases h
      · cases h; exact ⟨argRun_length_le s, hmk _ _⟩

/-- A block's chain, its `]` and what follows make up the text. -/
theorem chainText_afterClose_length (h : s.contains chClose = true) :
    (chainText s).length + 1 + (afterClose s).length = s.length := by
  have hne : s.dropWhile (fun c => c != chClose) ≠ [] := by
    simpa [List.dropWhile_eq_nil_iff] using h
  have hpos := List.length_pos_iff.mpr hne
  have hsum := congrArg List.length (List.takeWhile_append_dropWhile (p := fun c => c != chClose) (l := s))
  simp only [List.length_append] at hsum
  simp only [chainText, afterClose, List.length_drop]
  omega

theorem decodeBlock_readFrom (h : decodeBlock s = .ok (i, used)) : ReadFrom s i used := by
  unfold decodeBlock at h
  split at h
  · cases h
  next hc =>
    split at h
    · cases h
    · split at h
      · cases h
      · cases h
        have hlen := chainText_afterClose_length (by simpa using hc)
        have hdig := digitRun_length_le (afterClose s)
        exact ⟨by omega, rfl, rfl⟩

theorem decodeCmd_readFrom {c : Byte} (h : decodeCmd c s = .ok (i, used)) : ReadFrom s i used := by
  unfold decodeCmd at h
  split_ifs at h
  · exact decodeN_readFrom (fun _ => ⟨rfl, rfl⟩) h
  · exact decodeN_readFrom (fun _ => ⟨rfl, rfl⟩) h
  · exact decodeN_readFrom (fun _ => ⟨rfl, rfl⟩) h
  · exact decodeN_readFrom (fun _ => ⟨rfl, rfl⟩) h
  · exact decodeByteSwap_readFrom h
  · exact decodeInsert_readFrom h
  · exact decodeL_readFrom (fun _ _ => ⟨rfl, rfl⟩) h
  · exact decodeL_readFrom (fun _ _ => ⟨rfl, rfl⟩) h
  · exact decodeL_readFrom (fun _ _ => ⟨rfl, rfl⟩) h
  · exact decodeBlock_readFrom h

end Formats

/-- `Decode` at `p` moves forward, stays in the text, and gives a well-formed top-level command. -/
theorem decode_command {text : Text} {p q : Nat} {i : Instr} (h : decode text p = .command i q) :
    p < q ∧ q ≤ text.length ∧ i.topLevel = true ∧ i.wf = true := by
  unfold decode at h
  split at h
  · cases h
  next c s hs =>
    split at h
    · cases h
    next used hc =>
      cases h
      obtain ⟨hu, ht, hw⟩ := decodeCmd_readFrom hc
      have hlen := congrArg List.length hs
      simp only [List.length_drop, List.length_cons] at hlen
      exact ⟨by omega, by omega, ht, hw⟩

end Sys2Proof

namespace Sys2Proof.Machine

/-! ### The exact outcome of every command (42_sequencer.md R88) -/

/-- The commands that read their chunk of the input: all with a count but Skip (R98). -/
def readsChunk : Instr → Bool
  | .take _ | .invert _ | .reverseBits _ | .byteSwap _ => true
  | .logicXor _ _ | .logicAnd _ _ | .logicOr _ _ | .block _ _ => true
  | .skip _ | .insert _ | .chainInvert | .chainReverseBits | .chainByteSwap => false
  | .chainXor _ | .chainAnd _ | .chainOr _ => false

/-- What a command leaves in the working copy W (R111, R113 to R118). -/
def workAfter : Instr → Bits → Bits
  | .block _ _, _ => []
  | .chainInvert, w => inv w
  | .chainReverseBits, w => brev w
  | .chainByteSwap, w => bswap w
  | .chainXor p, w => mask .xor w p
  | .chainAnd p, w => mask .and w p
  | .chainOr p, w => mask .or w p
  | .take _, w | .skip _, w | .insert _, w | .invert _, w | .reverseBits _, w | .byteSwap _, w => w
  | .logicXor _ _, w | .logicAnd _ _, w | .logicOr _ _, w => w

/-- The command reads its chunk and the read is not defined (R37, log 9). -/
def readFails (i : Instr) (s : State) : Bool :=
  readsChunk i && (memRead s s.pos (moved i (s.re - s.pos))).isNone

/-- The state after a command that does not stop. -/
def afterExec (i : Instr) (s : State) : State :=
  { s with
    out := s.out ++ appended i (inputSlice s s.pos (moved i (s.re - s.pos)))
    pos := s.pos + moved i (s.re - s.pos)
    work := workAfter i s.work }

theorem consume_eq (f : Bits → Bits) (n : Nat) (s : State) :
    consume f n s =
      if (memRead s s.pos (clampCount s n)).isNone then .fault .readOutsideWindow
      else .next (advance (clampCount s n)
        { s with out := s.out ++ f (inputSlice s s.pos (clampCount s n)) }) := by
  rcases consume_cases f n s with ⟨c, hc, h⟩ | ⟨hc, h⟩
  · rw [h, hc, (memRead_eq_some.mp hc).2]; rfl
  · rw [h, hc]; rfl

theorem execBlock_eq (chain : List ChainCmd) (n : Nat) (s : State) :
    execBlock chain n s =
      if (memRead s s.pos (clampCount s n)).isNone then .fault .readOutsideWindow
      else .next (advance (clampCount s n)
        { s with out := s.out ++ applyChain chain (inputSlice s s.pos (clampCount s n)), work := [] }) := by
  rcases execBlock_cases chain n s with ⟨c, hc, h⟩ | ⟨hc, h⟩
  · rw [h, hc, (memRead_eq_some.mp hc).2]; rfl
  · rw [h, hc]; rfl

/-- A chain command appends nothing, does not move the cursor, and applies its unit to W (R113 to R118). -/
theorem chainCmd_effect (k : ChainCmd) :
    appended k.toInstr = (fun _ => []) ∧ moved k.toInstr = (fun _ => 0) ∧
      workAfter k.toInstr = apply1 k := by
  cases k with
  | logical op p => cases op <;> exact ⟨rfl, rfl, rfl⟩
  | _ => exact ⟨rfl, rfl, rfl⟩

theorem exec_chainCmd (k : ChainCmd) (s : State) : exec k.toInstr s = .next (afterExec k.toInstr s) := by
  obtain ⟨hout, hpos, hwork⟩ := chainCmd_effect k
  simp [exec_chain, afterExec, hout, hpos, hwork]

/-- The outcome of every command in every state. -/
theorem exec_eq (i : Instr) (s : State) :
    exec i s = if readFails i s then .fault .readOutsideWindow else .next (afterExec i s) := by
  cases i with
  | take n => exact consume_eq _ n s
  | skip n => simp [exec, execSkip, readFails, readsChunk, afterExec, advance, appended, moved,
      Instr.count?, clampCount, workAfter]
  | insert lit => rfl
  | invert n => exact consume_eq _ n s
  | reverseBits n => exact consume_eq _ n s
  | byteSwap n => exact consume_eq _ n s
  | logicXor n p => exact consume_eq _ n s
  | logicAnd n p => exact consume_eq _ n s
  | logicOr n p => exact consume_eq _ n s
  | block chain n => exact execBlock_eq chain n s
  | chainInvert => exact exec_chainCmd .invert s
  | chainReverseBits => exact exec_chainCmd .reverseBits s
  | chainByteSwap => exact exec_chainCmd .byteSwap s
  | chainXor p => exact exec_chainCmd (.logical .xor p) s
  | chainAnd p => exact exec_chainCmd (.logical .and p) s
  | chainOr p => exact exec_chainCmd (.logical .or p) s

theorem exec_eq_next {i : Instr} {s t : State} :
    exec i s = .next t ↔ readFails i s = false ∧ afterExec i s = t := by
  rw [exec_eq]
  cases readFails i s <;> simp

/-- No command opens a block that it does not close (R26 (c)): the units map the empty W to itself. -/
@[simp] theorem workAfter_nil (i : Instr) : workAfter i [] = [] := by cases i <;> rfl

theorem moved_le (i : Instr) (left : Nat) : moved i left ≤ left := by
  unfold moved
  cases i.count? with
  | none => exact Nat.zero_le left
  | some n => exact Nat.min_le_right n left

/-- The state after a step that executes a command (R86, R89 (a)). -/
theorem runCommand_eq_next {i : Instr} {q : Nat} {s t : State} :
    runCommand i q s = .next t ↔
      readFails i (emitTrace i s) = false ∧ { afterExec i (emitTrace i s) with tp := q } = t := by
  simp [runCommand, andThen_eq_next, exec_eq_next, and_assoc]

/-- Settles O35: a command that does not stop changes OUT, the cursor and W alone. -/
theorem commandFrame : Obligations.CommandFrame := by
  unfold Obligations.CommandFrame
  refine ⟨fun i s => ?_, fun i s t h => ?_⟩
  · rcases exec_cases i s with e | ⟨w, e, -, -⟩
    · exact .inr e
    · exact .inl ⟨_, e⟩
  · rcases exec_cases i s with e | ⟨w, e, hkeep, hblock⟩
    · rw [e] at h; cases h
    · rw [e] at h; cases h
      exact ⟨by simp, fun _ _ => rfl, fun k hk => List.getElem?_append_left hk, rfl, rfl, hkeep, hblock⟩

/-! ### The cursor -/

theorem endPass_cursor (s : State) :
    (endPass s).rs = s.rs ∧ (endPass s).re = s.re ∧ (endPass s).pos = s.pos := by
  rcases endPass_cases s with ⟨-, e⟩ | ⟨-, e⟩
  · rw [e]; exact ⟨rfl, rfl, rfl⟩
  · rw [e]; exact ⟨rfl, rfl, rfl⟩

/-- A step of a run keeps the window and moves the cursor forward inside it (R18, R20). -/
theorem runStep_cursor {s t : State} (hw : windowOk s) (h : runStep s = .next t) :
    t.rs = s.rs ∧ t.re = s.re ∧ s.pos ≤ t.pos ∧ t.pos ≤ t.re := by
  obtain ⟨-, hp, -⟩ := hw
  have pass : (endPass s).rs = s.rs ∧ (endPass s).re = s.re ∧
      s.pos ≤ (endPass s).pos ∧ (endPass s).pos ≤ (endPass s).re := by
    obtain ⟨h1, h2, h3⟩ := endPass_cursor s
    exact ⟨h1, h2, h3.ge, by omega⟩
  rcases runStep_cases s with ⟨-, -, e⟩ | ⟨-, ⟨-, e⟩ | ⟨k, -, e⟩ | ⟨i, q, -, -, e⟩ | ⟨i, q, -, -, e⟩⟩
  · rw [e] at h; cases h; exact ⟨rfl, rfl, Nat.le_refl _, hp⟩
  · rw [e] at h; cases h; exact pass
  · rw [e] at h; cases h; exact ⟨rfl, rfl, Nat.le_refl _, hp⟩
  · rw [e] at h; cases h; exact pass
  · rw [e, runCommand_eq_next] at h
    obtain ⟨-, rfl⟩ := h
    have hm := moved_le i (s.re - s.pos)
    simp only [afterExec, emitTrace_rs, emitTrace_re, emitTrace_pos, true_and]
    omega

/-- Settles O43, from the outcome of every command and the step lemma `runStep_cursor`. -/
theorem cursorStaysInTheWindow : Obligations.CursorStaysInTheWindow := by
  unfold Obligations.CursorStaysInTheWindow
  refine ⟨fun a b s => ⟨rfl, rfl⟩, fun i s t h => ?_, fun s t hr hw h => ?_⟩
  · obtain ⟨-, rfl⟩ := exec_eq_next.mp h
    rfl
  · rw [step_run hr] at h
    obtain ⟨hrs, hre, hge, hle⟩ := runStep_cursor hw h
    exact ⟨hrs, hre, hge, hrs ▸ Nat.le_trans hw.1 hge, hle⟩

/-! ### The host's actions -/

theorem hostWrite_idle {s : State} (hb : s.status ≠ .busy) (f : State → State) :
    hostWrite f s = .next (f s) := if_neg hb

theorem serveHost_go_idle {s : State} (hb : s.status ≠ .busy) : serveHost .go s = startRun s := if_neg hb

theorem startRun_ok {s : State} {a b : Nat} (h : normaliseRange s.argStart s.argEnd s.len = .ok (a, b)) :
    startRun s = .next (beginRun a b s) := by
  simp [startRun, h]

theorem startRun_error {s : State} {k : ErrorKind}
    (h : normaliseRange s.argStart s.argEnd s.len = .error k) :
    startRun s = .next (raiseError k { s with trace := [] }) := by
  simp [startRun, h]

/-- The step that serves GO with a good range (R139, R81). -/
theorem step_go_ok {s : State} {rest : List HostReq} {a b : Nat} (hin : s.hostIn = .go :: rest)
    (hb : s.status ≠ .busy) (h : normaliseRange s.argStart s.argEnd s.len = .ok (a, b)) :
    step s = .next (beginRun a b { s with hostIn := rest }) :=
  calc step s = serveHost .go { s with hostIn := rest } := step_host hin
    _ = startRun { s with hostIn := rest } := serveHost_go_idle hb
    _ = _ := startRun_ok h

/-- The step that serves GO with a bad range (R139, R123). -/
theorem step_go_error {s : State} {rest : List HostReq} {k : ErrorKind} (hin : s.hostIn = .go :: rest)
    (hb : s.status ≠ .busy) (h : normaliseRange s.argStart s.argEnd s.len = .error k) :
    step s = .next (raiseError k { s with hostIn := rest, trace := [] }) :=
  calc step s = serveHost .go { s with hostIn := rest } := step_host hin
    _ = startRun { s with hostIn := rest } := serveHost_go_idle hb
    _ = _ := startRun_error h

/-- While the unit is BUSY it serves the hardware reset and nothing else (R141). -/
theorem serveHost_busy {a : HostReq} {s : State} (hb : s.status = .busy) (ha : a ≠ .reset) :
    serveHost a s = .refused .hostAccessWhileBusy := by
  cases a with
  | reset => exact absurd rfl ha
  | _ => exact if_pos hb

/-- Everything a host action that is served can do: write input registers or start a run, of a unit that
is not BUSY, or reset the unit. -/
theorem serveHost_cases {a : HostReq} {s t : State} (h : serveHost a s = .next t) :
    (s.status ≠ .busy ∧ ∃ b x m n v w, t = { s with
      inb := b, prog := x, argStart := m, argEnd := n, verbose := v, verboseOnce := w }) ∨
    (s.status ≠ .busy ∧ startRun s = .next t) ∨
    t = hardReset s := by
  by_cases ha : a = .reset
  · subst ha; cases h; exact .inr (.inr rfl)
  have hb : s.status ≠ .busy := fun hb => by rw [serveHost_busy hb ha] at h; cases h
  cases a with
  | reset => exact absurd rfl ha
  | go => rw [serveHost_go_idle hb] at h; exact .inr (.inl ⟨hb, h⟩)
  | _ =>
    rw [serveHost, hostWrite_idle hb] at h
    cases h
    exact .inl ⟨hb, _, _, _, _, _, _, rfl⟩

/-- Settles O47: a write is served by `hostWrite`, and a BUSY unit serves only the reset. -/
theorem hostWritesOnlyWhileNotBusy : Obligations.HostWritesOnlyWhileNotBusy := by
  unfold Obligations.HostWritesOnlyWhileNotBusy
  refine ⟨fun s rest b x n v hb => ?_, fun s a rest hb hin ha => ?_⟩
  · exact ⟨if_neg hb, if_neg hb, if_neg hb, if_neg hb, if_neg hb, if_neg hb⟩
  · rw [step_host hin]
    exact serveHost_busy hb ha

theorem engineState_eq_running {s : State} : engineState s = .running ↔ s.pos < s.re ∧ s.prog ≠ [] := by
  simp [engineState, exhausted]

/-- Settles O41: the step is `beginRun`, and the window is as `NormaliseRange` gives it. -/
theorem goTakesTheStartValues : Obligations.GoTakesTheStartValues := by
  unfold Obligations.GoTakesTheStartValues
  intro s rest a b hin hb hn
  have hstep : step s = .next (beginRun a b { s with hostIn := rest }) :=
    step_go_ok hin hb hn
  obtain ⟨hab, hlen⟩ := normaliseRange_bounds hn
  have hwindow : windowOk (beginRun a b { s with hostIn := rest }) := ⟨Nat.le_refl a, hab, hlen⟩
  exact ⟨_, hstep, rfl, rfl, rfl, rfl, rfl, rfl, rfl, rfl, rfl, rfl, rfl, hwindow, rfl, rfl, rfl, rfl, rfl, rfl,
    engineState_eq_running⟩

/-! ### The invariant -/

theorem errorCode_ne_zero (k : ErrorKind) : errorCode k ≠ 0 := by cases k <;> decide

@[simp] theorem unpackFromBits_length (v : Bits) : (unpackFromBits v).length = ceil8 v.length := by
  simp [unpackFromBits]

/-- During a run the invariant is the window and cursor rule, the text position, no open block and no
error. -/
theorem UnitInv.of_busy {s : State} (hb : s.status = .busy) (hw : windowOk s) (ht : s.tp ≤ s.prog.length)
    (h0 : s.work = []) (he : s.err = 0) : UnitInv s where
  memory := memory_wf_iff.mpr fun _ => ⟨hw, ht⟩
  noWork := h0
  busyErr _ := he
  okResult h := by rw [hb] at h; cases h
  errResult h := by rw [hb] at h; cases h
  idleResult h := by rw [hb] at h; cases h

theorem UnitInv.window {s : State} (hs : UnitInv s) (hb : s.status = .busy) :
    windowOk s ∧ s.tp ≤ s.prog.length := memory_wf_iff.mp hs.memory hb

/-- Between runs the invariant does not look at the input registers or at the pending actions. -/
theorem UnitInv.write_inputs {s : State} (hs : UnitInv s) (hb : s.status ≠ .busy) (b : Bytes) (x : Text)
    (m n : Int) (v w : Bit) : UnitInv { s with
      inb := b, prog := x, argStart := m, argEnd := n, verbose := v, verboseOnce := w } where
  memory := memory_wf_iff.mpr fun h => absurd h hb
  noWork := hs.noWork
  busyErr h := absurd h hb
  okResult := hs.okResult
  errResult := hs.errResult
  idleResult := hs.idleResult

theorem unitInv_raiseError (k : ErrorKind) {s : State} (h0 : s.work = []) : UnitInv (raiseError k s) where
  memory := rfl
  noWork := h0
  busyErr h := by cases h
  okResult h := by cases h
  errResult _ := ⟨errorCode_ne_zero k, rfl, rfl, rfl⟩
  idleResult h := by cases h

theorem unitInv_finishRun {s : State} (h0 : s.work = []) : UnitInv (finishRun s) where
  memory := rfl
  noWork := h0
  busyErr h := by cases h
  okResult _ := ⟨rfl, rfl, (unpackFromBits_length s.out).symm⟩
  errResult h := by cases h
  idleResult h := by cases h

theorem unitInv_hardReset (s : State) : UnitInv (hardReset s) where
  memory := rfl
  noWork := rfl
  busyErr h := by cases h
  okResult h := by cases h
  errResult h := by cases h
  idleResult _ := ⟨rfl, rfl, rfl⟩

theorem unitInv_startRun {s t : State} (hs : UnitInv s) (h : startRun s = .next t) : UnitInv t := by
  rcases startRun_cases s with ⟨rs, re, hn, e⟩ | ⟨k, -, e⟩
  · rw [e] at h; cases h
    obtain ⟨hab, hlen⟩ := normaliseRange_bounds hn
    exact .of_busy rfl ⟨Nat.le_refl rs, hab, hlen⟩ (Nat.zero_le _) rfl rfl
  · rw [e] at h; cases h
    exact unitInv_raiseError k hs.noWork

theorem unitInv_serveHost {a : HostReq} {s t : State} (hs : UnitInv s) (h : serveHost a s = .next t) :
    UnitInv t := by
  rcases serveHost_cases h with ⟨hb, b, x, m, n, v, w, rfl⟩ | ⟨-, h⟩ | rfl
  · exact hs.write_inputs hb b x m n v w
  · exact unitInv_startRun hs h
  · exact unitInv_hardReset s

theorem unitInv_endPass {s : State} (hs : UnitInv s) (hb : s.status = .busy) : UnitInv (endPass s) := by
  rcases endPass_cases s with ⟨-, e⟩ | ⟨-, e⟩
  · rw [e]; exact unitInv_finishRun hs.noWork
  · rw [e]; exact .of_busy hb (hs.window hb).1 (Nat.zero_le _) hs.noWork (hs.busyErr hb)

theorem unitInv_runCommand {i : Instr} {q : Nat} {s t : State} (hs : UnitInv s) (hb : s.status = .busy)
    (hd : decode s.prog s.tp = .command i q) (h : runCommand i q s = .next t) : UnitInv t := by
  obtain ⟨-, hq, -, -⟩ := decode_command hd
  obtain ⟨⟨hrs, hpos, hre⟩, -⟩ := hs.window hb
  have hm := moved_le i (s.re - s.pos)
  obtain ⟨-, rfl⟩ := runCommand_eq_next.mp h
  refine .of_busy ?_ ?_ ?_ ?_ ?_
  · simpa [afterExec] using hb
  · simp only [windowOk, afterExec, State.len, emitTrace_rs, emitTrace_re, emitTrace_pos, emitTrace_inb]
    exact ⟨by omega, by omega, hre⟩
  · simpa [afterExec] using hq
  · simp [afterExec, hs.noWork]
  · simpa [afterExec] using hs.busyErr hb

theorem unitInv_runStep {s t : State} (hs : UnitInv s) (hb : s.status = .busy) (h : runStep s = .next t) :
    UnitInv t := by
  rcases runStep_cases s with ⟨-, -, e⟩ | ⟨-, ⟨-, e⟩ | ⟨k, -, e⟩ | ⟨i, q, -, -, e⟩ | ⟨i, q, hd, -, e⟩⟩
  · rw [e] at h; cases h; exact unitInv_finishRun hs.noWork
  · rw [e] at h; cases h; exact unitInv_endPass hs hb
  · rw [e] at h; cases h; exact unitInv_raiseError k hs.noWork
  · rw [e] at h; cases h; exact unitInv_endPass hs hb
  · rw [e] at h; exact unitInv_runCommand hs hb hd h

/-- Settles O51: by what the step is, a host action, a step of the run, or nothing. -/
theorem everyStepKeepsTheInvariant : Obligations.EveryStepKeepsTheInvariant := by
  unfold Obligations.EveryStepKeepsTheInvariant
  intro s t hs h
  cases hin : s.hostIn with
  | cons a rest =>
    rw [step_host hin] at h
    obtain ⟨hmem, hwork, hbusy, hok, herr, hidle⟩ := hs
    exact unitInv_serveHost (s := { s with hostIn := rest }) ⟨hmem, hwork, hbusy, hok, herr, hidle⟩ h
  | nil =>
    by_cases hb : s.status = .busy
    · rw [step_run ⟨hb, hin⟩] at h
      exact unitInv_runStep hs hb h
    · rw [step_idle hin hb] at h; cases h; exact hs

/-- Settles O50: the registers R30 names are at their values, and the unit is IDLE. -/
theorem resetHasTheInvariant : Obligations.ResetHasTheInvariant where
  memory := reset_memory_wf
  noWork := rfl
  busyErr h := by cases h
  okResult h := by cases h
  errResult h := by cases h
  idleResult _ := ⟨rfl, rfl, rfl⟩

/-! ### One run simulated by another -/

/-- A relation between two states of a run that stays true when both take the same step: related states
agree in what decides the step, and each thing a step can do keeps them related. -/
structure RunSimulation (R : State → State → Prop) : Prop where
  noHost : ∀ {s u}, R s u → s.hostIn = [] ∧ u.hostIn = []
  control : ∀ {s u}, R s u →
    u.status = s.status ∧ u.prog = s.prog ∧ u.tp = s.tp ∧ u.re = s.re ∧ u.pos = s.pos
  finish : ∀ {s u}, R s u → R (finishRun s) (finishRun u)
  raise : ∀ {s u} (k : ErrorKind), R s u → R (raiseError k s) (raiseError k u)
  countPass : ∀ {s u}, R s u → R { s with pass := s.pass + 1 } { u with pass := u.pass + 1 }
  setTp : ∀ {s u} (q : Nat), R s u → R { s with tp := q } { u with tp := q }
  command : ∀ {s u t} (i : Instr), R s u → exec i (emitTrace i s) = .next t →
    ∃ v, exec i (emitTrace i u) = .next v ∧ R t v

namespace RunSimulation

variable {R : State → State → Prop} {s u t : State}

theorem exhausted_eq (sim : RunSimulation R) (h : R s u) : exhausted u = exhausted s := by
  obtain ⟨-, hprog, -, hre, hpos⟩ := sim.control h
  simp only [exhausted, hprog, hre, hpos]

theorem endPass_related (sim : RunSimulation R) (h : R s u) : R (endPass s) (endPass u) := by
  simp only [endPass, sim.exhausted_eq h]
  split
  · exact sim.finish (sim.countPass h)
  · exact sim.setTp 0 (sim.countPass h)

theorem runCommand_related (sim : RunSimulation R) (i : Instr) (q : Nat) (h : R s u)
    (hs : runCommand i q s = .next t) : ∃ v, runCommand i q u = .next v ∧ R t v := by
  obtain ⟨t', ht, e⟩ := andThen_eq_next.mp hs
  obtain ⟨v', hv, hr⟩ := sim.command i h ht
  cases e
  exact ⟨_, andThen_eq_next.mpr ⟨v', hv, rfl⟩, sim.setTp q hr⟩

theorem runStep_related (sim : RunSimulation R) (h : R s u) (hs : runStep s = .next t) :
    ∃ v, runStep u = .next v ∧ R t v := by
  obtain ⟨-, hprog, htp, hre, hpos⟩ := sim.control h
  simp only [runStep, sim.exhausted_eq h, hprog, htp, hre, hpos] at hs ⊢
  split at hs
  next hx => rw [if_pos hx]; cases hs; exact ⟨_, rfl, sim.finish h⟩
  next hx =>
    rw [if_neg hx]
    split at hs
    next => cases hs; exact ⟨_, rfl, sim.endPass_related h⟩
    next k _ => cases hs; exact ⟨_, rfl, sim.raise k h⟩
    next i q _ =>
      split at hs
      next hp => rw [if_pos hp]; cases hs; exact ⟨_, rfl, sim.endPass_related h⟩
      next hp => rw [if_neg hp]; exact sim.runCommand_related i q h hs

theorem step_related (sim : RunSimulation R) (h : R s u) (hs : step s = .next t) :
    ∃ v, step u = .next v ∧ R t v := by
  obtain ⟨hs0, hu0⟩ := sim.noHost h
  obtain ⟨hst, -⟩ := sim.control h
  by_cases hb : s.status = .busy
  · rw [step_run ⟨hb, hs0⟩] at hs
    rw [step_run ⟨hst.trans hb, hu0⟩]
    exact sim.runStep_related h hs
  · rw [step_idle hs0 hb] at hs
    cases hs
    exact ⟨u, step_idle hu0 (hst ▸ hb), h⟩

/-- Related states stay related after any number of steps. -/
theorem runSteps_related (sim : RunSimulation R) (k : Nat) (h : R s u) (hs : runSteps k s = .next t) :
    ∃ v, runSteps k u = .next v ∧ R t v := by
  induction k generalizing s u with
  | zero => cases hs; exact ⟨u, rfl, h⟩
  | succ k ih =>
    rw [runSteps_succ, andThen_eq_next] at hs
    obtain ⟨s', hs', hs⟩ := hs
    obtain ⟨u', hu', h'⟩ := sim.step_related h hs'
    obtain ⟨v, hv, hr⟩ := ih h' hs
    exact ⟨v, by rw [runSteps_succ, hu', andThen_next, hv], hr⟩

end RunSimulation

/-! ### Runs that differ in the diagnostic flags -/

/-- `u` is `s` but for the diagnostic flags, which are `v` and `w`, and the trace. -/
def SameButDiagnostics (v w : Bit) (s u : State) : Prop :=
  s.hostIn = [] ∧ ∃ tr, u = { s with verbose := v, verboseOnce := w, trace := tr }

/-- The trace when a command is about to be executed (R136). -/
def traceWith (i : Instr) (s : State) : List TraceRec :=
  if traceGate s then s.trace ++ [⟨s.pass, i⟩] else s.trace

theorem emitTrace_eq (i : Instr) (s : State) : emitTrace i s = { s with trace := traceWith i s } := by
  unfold emitTrace traceWith
  split <;> rfl

theorem sameButDiagnostics_simulation (v w : Bit) : RunSimulation (SameButDiagnostics v w) where
  noHost := by rintro s _ ⟨h0, tr, rfl⟩; exact ⟨h0, h0⟩
  control := by rintro s _ ⟨-, tr, rfl⟩; exact ⟨rfl, rfl, rfl, rfl, rfl⟩
  finish := by rintro s _ ⟨h0, tr, rfl⟩; exact ⟨h0, tr, rfl⟩
  raise := by rintro s _ k ⟨h0, tr, rfl⟩; exact ⟨h0, tr, rfl⟩
  countPass := by rintro s _ ⟨h0, tr, rfl⟩; exact ⟨h0, tr, rfl⟩
  setTp := by rintro s _ q ⟨h0, tr, rfl⟩; exact ⟨h0, tr, rfl⟩
  command := by
    rintro s _ t i ⟨h0, tr, rfl⟩ h
    rw [emitTrace_eq, exec_eq_next] at h
    obtain ⟨hread, rfl⟩ := h
    rw [emitTrace_eq]
    exact ⟨_, exec_eq_next.mpr ⟨hread, rfl⟩, h0, _, rfl⟩

/-- Settles O58: nothing in a run reads the flags but the trace gate, and nothing reads the trace. -/
theorem diagnosticFlagsOnlyGateTheTrace : Obligations.DiagnosticFlagsOnlyGateTheTrace := by
  unfold Obligations.DiagnosticFlagsOnlyGateTheTrace
  intro k s t v w hr h
  obtain ⟨-, hrun, -, tr, rfl⟩ :=
    (sameButDiagnostics_simulation v w).runSteps_related k (u := { s with verbose := v, verboseOnce := w })
      ⟨hr.2, s.trace, rfl⟩ h
  exact ⟨tr, hrun⟩

/-! ### Runs that differ in what an earlier run left behind -/

/-- `u` is `s` but for the counter of free values and, until the run is over, the result registers (93
U10). -/
def SameButHeldResults (s u : State) : Prop :=
  s.hostIn = [] ∧ ∃ o n c, u = { s with outb := o, outNbytes := n, freeCtr := c } ∧
    (s.status ≠ .busy → o = s.outb ∧ n = s.outNbytes)

theorem sameButHeldResults_simulation : RunSimulation SameButHeldResults where
  noHost := by rintro s _ ⟨h0, o, n, c, rfl, -⟩; exact ⟨h0, h0⟩
  control := by rintro s _ ⟨-, o, n, c, rfl, -⟩; exact ⟨rfl, rfl, rfl, rfl, rfl⟩
  finish := by rintro s _ ⟨h0, o, n, c, rfl, -⟩; exact ⟨h0, _, _, c, rfl, fun _ => ⟨rfl, rfl⟩⟩
  raise := by rintro s _ k ⟨h0, o, n, c, rfl, -⟩; exact ⟨h0, _, _, c, rfl, fun _ => ⟨rfl, rfl⟩⟩
  countPass := by rintro s _ ⟨h0, o, n, c, rfl, hd⟩; exact ⟨h0, o, n, c, rfl, hd⟩
  setTp := by rintro s _ q ⟨h0, o, n, c, rfl, hd⟩; exact ⟨h0, o, n, c, rfl, hd⟩
  command := by
    rintro s _ t i ⟨h0, o, n, c, rfl, hd⟩ h
    rw [emitTrace_eq, exec_eq_next] at h
    obtain ⟨hread, rfl⟩ := h
    rw [emitTrace_eq]
    exact ⟨_, exec_eq_next.mpr ⟨hread, rfl⟩, h0, o, n, c, rfl, hd⟩

/-- GO leaves nothing of what the unit held but the six arguments (R28, R29). -/
theorem beginRun_related {s u : State} (a b : Nat) (hs : s.hostIn = []) (hu : u.hostIn = [])
    (hinb : u.inb = s.inb) (hprog : u.prog = s.prog) (hstart : u.argStart = s.argStart)
    (hend : u.argEnd = s.argEnd) (hv : u.verbose = s.verbose) (hw : u.verboseOnce = s.verboseOnce) :
    SameButHeldResults (beginRun a b s) (beginRun a b u) := by
  refine ⟨hs, Config.freeBytes u.freeCtr, Config.freeNat u.freeCtr, u.freeCtr + 1, ?_,
    fun h => absurd rfl h⟩
  simp only [beginRun, hs, hu, hinb, hprog, hstart, hend, hv, hw]

theorem runSteps_idle {s : State} (hin : s.hostIn = []) (hb : s.status ≠ .busy) (k : Nat) :
    runSteps k s = .next s := by
  induction k with
  | zero => rfl
  | succ k ih => rw [runSteps_succ, step_idle hin hb, andThen_next, ih]

/-- Settles O59: with a bad range both units end with RangeError at once; with a good one GO makes them
the same but for what a run does not read. -/
theorem sameArgumentsSameResult : Obligations.SameArgumentsSameResult := by
  unfold Obligations.SameArgumentsSameResult
  intro k s u t hsb hub hs hu hinb hprog hstart hend hv hw h
  have hlen : u.len = s.len := by simp only [State.len, hinb]
  cases hn : normaliseRange s.argStart s.argEnd s.len with
  | error e =>
    have hn' : normaliseRange u.argStart u.argEnd u.len = .error e := by rw [hstart, hend, hlen, hn]
    rw [runSteps_succ, step_go_error hs hsb hn, andThen_next, runSteps_idle rfl (by simp)] at h
    rw [runSteps_succ, step_go_error hu hub hn', andThen_next, runSteps_idle rfl (by simp)]
    cases h
    exact ⟨_, rfl, rfl, rfl, rfl, fun _ => ⟨rfl, rfl⟩, fun _ => ⟨rfl, rfl⟩⟩
  | ok window =>
    obtain ⟨a, b⟩ := window
    have hn' : normaliseRange u.argStart u.argEnd u.len = .ok (a, b) := by rw [hstart, hend, hlen, hn]
    rw [runSteps_succ, step_go_ok hs hsb hn, andThen_next] at h
    rw [runSteps_succ, step_go_ok hu hub hn', andThen_next]
    obtain ⟨v, hrun, -, o, n, c, rfl, hdone⟩ := sameButHeldResults_simulation.runSteps_related k
      (beginRun_related (s := { s with hostIn := [] }) (u := { u with hostIn := [] }) a b rfl rfl
        hinb hprog hstart hend hv hw) h
    exact ⟨_, hrun, rfl, rfl, rfl, fun hok => hdone (by simp [hok]), fun herr => hdone (by simp [herr])⟩

end Sys2Proof.Machine

/-! PROOFS. The memory (20_memory.md): what a run reads of the input space, what it leaves of the input
registers, and how it builds its output. -/

namespace Sys2Proof.Machine

/-! ### Runs that differ in the input bits outside the window (20_memory.md R32, R37) -/

/-- The input `b` is as long as that of `s` and has the same bits inside the window. -/
def AgreesInWindow (b : Bytes) (s : State) : Prop :=
  b.length = s.inb.length ∧ ∀ k, s.rs ≤ k → k < s.re → (packToBits b)[k]? = s.inbits[k]?

/-- A slice inside the window is the same in both inputs. -/
theorem inputSlice_of_agrees {b : Bytes} {s : State} (h : AgreesInWindow b s) {a m : Nat}
    (hrs : s.rs ≤ a) (hre : a + m ≤ s.re) :
    inputSlice { s with inb := b } a m = inputSlice s a m := by
  obtain ⟨-, hbits⟩ := h
  refine List.ext_getElem? fun j => ?_
  simp only [inputSlice, List.getElem?_take, List.getElem?_drop]
  by_cases hj : j < m
  · rw [if_pos hj, if_pos hj]
    exact hbits (a + j) (by omega) (by omega)
  · rw [if_neg hj, if_neg hj]

/-- `MemRead` gives the same bits of both inputs, or is undefined in both: it reads the window alone. -/
theorem memRead_of_agrees {b : Bytes} {s : State} (h : AgreesInWindow b s) (a m : Nat) :
    memRead { s with inb := b } a m = memRead s a m := by
  have hlen : State.len { s with inb := b } = s.len := congrArg (8 * ·) h.1
  simp only [memRead, hlen]
  split
  next hin => exact congrArg some (inputSlice_of_agrees h hin.1 hin.2.1)
  next => rfl

theorem readFails_of_agrees {b : Bytes} {s : State} (h : AgreesInWindow b s) (i : Instr) :
    readFails i { s with inb := b } = readFails i s := by
  simp only [readFails, memRead_of_agrees h]

/-- What a command appends depends on the input only if the command reads it. -/
theorem appended_of_not_readsChunk {i : Instr} (h : readsChunk i = false) (c d : Bits) :
    appended i c = appended i d := by
  cases i with
  | skip _ | insert _ | chainInvert | chainReverseBits | chainByteSwap => rfl
  | chainXor _ | chainAnd _ | chainOr _ => rfl
  | take _ | invert _ | reverseBits _ | byteSwap _ => cases h
  | logicXor _ _ | logicAnd _ _ | logicOr _ _ | block _ _ => cases h

/-- A command that reads its chunk and does not stop has read it inside the window (R32). -/
theorem chunk_in_window {i : Instr} {s : State} (hr : readsChunk i = true) (h : readFails i s = false) :
    s.rs ≤ s.pos ∧ s.pos + moved i (s.re - s.pos) ≤ s.re := by
  cases hc : memRead s s.pos (moved i (s.re - s.pos)) with
  | none => simp [readFails, hr, hc] at h
  | some c =>
    obtain ⟨⟨hrs, hre, -⟩, -⟩ := memRead_eq_some.mp hc
    exact ⟨hrs, hre⟩

/-- A command that does not stop has the same effect on both inputs. -/
theorem afterExec_of_agrees {b : Bytes} {i : Instr} {s : State} (hs : AgreesInWindow b s)
    (h : readFails i s = false) :
    afterExec i { s with inb := b } = { afterExec i s with inb := b } := by
  have happ : appended i (inputSlice { s with inb := b } s.pos (moved i (s.re - s.pos))) =
      appended i (inputSlice s s.pos (moved i (s.re - s.pos))) := by
    cases hr : readsChunk i with
    | false => exact appended_of_not_readsChunk hr _ _
    | true =>
      obtain ⟨hrs, hre⟩ := chunk_in_window hr h
      rw [inputSlice_of_agrees hs hrs hre]
  simp only [afterExec, happ]

/-- `u` is `s` but for the input, which is `b` in `u` and the same inside the window. -/
def SameInWindow (b : Bytes) (s u : State) : Prop :=
  s.hostIn = [] ∧ AgreesInWindow b s ∧ u = { s with inb := b }

theorem sameInWindow_simulation (b : Bytes) : RunSimulation (SameInWindow b) where
  noHost := by rintro s _ ⟨h0, -, rfl⟩; exact ⟨h0, h0⟩
  control := by rintro s _ ⟨-, -, rfl⟩; exact ⟨rfl, rfl, rfl, rfl, rfl⟩
  finish := by rintro s _ ⟨h0, hag, rfl⟩; exact ⟨h0, hag, rfl⟩
  raise := by rintro s _ k ⟨h0, hag, rfl⟩; exact ⟨h0, hag, rfl⟩
  countPass := by rintro s _ ⟨h0, hag, rfl⟩; exact ⟨h0, hag, rfl⟩
  setTp := by rintro s _ q ⟨h0, hag, rfl⟩; exact ⟨h0, hag, rfl⟩
  command := by
    rintro s _ t i ⟨h0, hag, rfl⟩ h
    rw [emitTrace_eq, exec_eq_next] at h
    obtain ⟨hread, rfl⟩ := h
    have hag' : AgreesInWindow b { s with trace := traceWith i s } := hag
    rw [emitTrace_eq]
    exact ⟨_, exec_eq_next.mpr ⟨(readFails_of_agrees hag' i).trans hread, rfl⟩, h0, hag,
      afterExec_of_agrees hag' hread⟩

/-- Settles O56: a command reads the input through `MemRead` alone, which reads the window alone, so the
run with the other input simulates the run. `MemRead` checks the window itself: the invariant is not used. -/
theorem bitsOutsideTheWindowAreNeverRead : Obligations.BitsOutsideTheWindowAreNeverRead := by
  unfold Obligations.BitsOutsideTheWindowAreNeverRead
  intro k s t b _ hr hlen hbits h
  obtain ⟨_, hrun, -, -, rfl⟩ :=
    (sameInWindow_simulation b).runSteps_related k ⟨hr.2, ⟨hlen, hbits⟩, rfl⟩ h
  exact hrun

/-! ### The output space (20_memory.md R33) -/

/-- The end of a pass keeps OUT; if it ends the run, OUT is the result in bytes. -/
theorem endPass_out {s : State} (hb : s.status = .busy) :
    ((endPass s).status = .doneOk ∧ (endPass s).out = s.out ∧
      (endPass s).outb = unpackFromBits (endPass s).out) ∨
    ((endPass s).status = .busy ∧ s.out <+: (endPass s).out) := by
  rcases endPass_cases s with ⟨-, e⟩ | ⟨-, e⟩
  · rw [e]; exact .inl ⟨rfl, rfl, rfl⟩
  · rw [e]; exact .inr ⟨hb, List.prefix_rfl⟩

/-- What a step of a run makes of OUT: an error ends the run, or the run ends and OUT is the result in
bytes, or the run goes on and OUT has grown at its end. -/
theorem runStep_out {s t : State} (hb : s.status = .busy) (h : runStep s = .next t) :
    t.status = .doneErr ∨
    (t.status = .doneOk ∧ t.out = s.out ∧ t.outb = unpackFromBits t.out) ∨
    (t.status = .busy ∧ s.out <+: t.out) := by
  rcases runStep_cases s with ⟨-, -, e⟩ | ⟨-, ⟨-, e⟩ | ⟨k, -, e⟩ | ⟨i, q, -, -, e⟩ | ⟨i, q, -, -, e⟩⟩
  · rw [e] at h; cases h; exact .inr (.inl ⟨rfl, rfl, rfl⟩)
  · rw [e] at h; cases h; exact .inr (endPass_out hb)
  · rw [e] at h; cases h; exact .inl rfl
  · rw [e] at h; cases h; exact .inr (endPass_out hb)
  · rw [e, runCommand_eq_next] at h
    obtain ⟨-, rfl⟩ := h
    exact .inr (.inr ⟨by simpa [afterExec] using hb, by simp [afterExec]⟩)

/-- Settles O44, from what a step of a run makes of OUT. -/
theorem outputIsAppendOnly : Obligations.OutputIsAppendOnly := by
  unfold Obligations.OutputIsAppendOnly
  refine ⟨outAppend_eq, fun s t hr h hne k hk => ?_, fun s t hr h hok => ?_⟩
  · rw [step_run hr] at h
    have hprefix : s.out <+: t.out := by
      rcases runStep_out hr.1 h with herr | ⟨-, hout, -⟩ | ⟨-, hout⟩
      · exact absurd herr hne
      · exact hout ▸ List.prefix_rfl
      · exact hout
    obtain ⟨v, hv⟩ := hprefix
    rw [← hv, List.getElem?_append_left hk]
  · rw [step_run hr] at h
    rcases runStep_out hr.1 h with herr | ⟨-, -, houtb⟩ | ⟨hbusy, -⟩
    · rw [hok] at herr; cases herr
    · exact houtb
    · rw [hok] at hbusy; cases hbusy

/-! ### What a run writes (20_memory.md R31, R45) -/

/-- What no step of a run writes: the host's pending actions, the input and program space, the range, the
flags and the window. -/
def runConstants (s : State) : List HostReq × Bytes × Text × Int × Int × Bit × Bit × Nat × Nat :=
  (s.hostIn, s.inb, s.prog, s.argStart, s.argEnd, s.verbose, s.verboseOnce, s.rs, s.re)

theorem runConstants_endPass (s : State) : runConstants (endPass s) = runConstants s := by
  rcases endPass_cases s with ⟨-, e⟩ | ⟨-, e⟩
  · rw [e]; rfl
  · rw [e]; rfl

theorem runConstants_runStep {s t : State} (h : runStep s = .next t) : runConstants t = runConstants s := by
  rcases runStep_cases s with ⟨-, -, e⟩ | ⟨-, ⟨-, e⟩ | ⟨k, -, e⟩ | ⟨i, q, -, -, e⟩ | ⟨i, q, -, -, e⟩⟩
  · rw [e] at h; cases h; rfl
  · rw [e] at h; cases h; exact runConstants_endPass s
  · rw [e] at h; cases h; rfl
  · rw [e] at h; cases h; exact runConstants_endPass s
  · rw [e, runCommand_eq_next] at h
    obtain ⟨-, rfl⟩ := h
    simp [runConstants, afterExec]

/-- With no host action pending a step keeps them, whether a run is in progress or over. -/
theorem runConstants_step {s t : State} (hin : s.hostIn = []) (h : step s = .next t) :
    runConstants t = runConstants s := by
  by_cases hb : s.status = .busy
  · rw [step_run ⟨hb, hin⟩] at h
    exact runConstants_runStep h
  · rw [step_idle hin hb] at h; cases h; rfl

/-- With no host action pending at the start, none is pending later, and any number of steps keeps them. -/
theorem runConstants_runSteps {k : Nat} {s t : State} (hin : s.hostIn = []) (h : runSteps k s = .next t) :
    runConstants t = runConstants s := by
  refine runSteps_invariant (P := fun u => runConstants u = runConstants s) (fun u v hu hv => ?_) k s t rfl h
  have hin' : u.hostIn = s.hostIn := congrArg Prod.fst hu
  exact (runConstants_step (hin'.trans hin) hv).trans hu

/-- Settles O45: the registers it names are among those that a run keeps. -/
theorem runsNeverWriteTheirInputs : Obligations.RunsNeverWriteTheirInputs := by
  unfold Obligations.RunsNeverWriteTheirInputs
  intro k s t hr h
  have hkeep := runConstants_runSteps hr.2 h
  simp only [runConstants, Prod.mk.injEq] at hkeep
  exact hkeep.2

end Sys2Proof.Machine

/-! PROOFS. The command language (30_encoding.md): where the scanner's runs end, the value of a count, the
scan of a text as repeated `Decode`, and the round trip of the encoder and the decoder. -/

namespace Sys2Proof

/-! ### Where a run ends (R50, R51) -/

/-- A scanner's run from position `p` ends at the first character its class does not hold, or at the end
of the text. -/
theorem run_ends_at_first_outside (f : Byte → Bool) (text : Text) {p : Nat} (hp : p ≤ text.length) :
    ∃ q, p ≤ q ∧ q ≤ text.length ∧
      (q = text.length ∨ ∃ c, text[q]? = some c ∧ f c = false) ∧
      (∀ k, p ≤ k → k < q → ∃ c, text[k]? = some c ∧ f c = true) ∧
      (text.drop p).takeWhile f = (text.drop p).take (q - p) ∧
      ((text.drop p).takeWhile f).length = q - p := by
  have hsplit := List.takeWhile_append_dropWhile (p := f) (l := text.drop p)
  have hlen := congrArg List.length hsplit
  have hat (k : Nat) : text[p + k]? = ((text.drop p).takeWhile f ++ (text.drop p).dropWhile f)[k]? := by
    rw [hsplit, List.getElem?_drop]
  have hrun : ∀ c ∈ (text.drop p).takeWhile f, f c = true := fun c hc => List.mem_takeWhile_imp hc
  have hstop : ∀ c r, (text.drop p).dropWhile f = c :: r → f c = false := fun c r h => by
    have := List.head?_dropWhile_not f (text.drop p)
    simpa [h] using this
  have htake := List.prefix_iff_eq_take.mp (List.takeWhile_prefix (p := f) (l := text.drop p))
  generalize (text.drop p).takeWhile f = run at *
  generalize (text.drop p).dropWhile f = after at *
  simp only [List.length_append, List.length_drop] at hlen
  refine ⟨p + run.length, by omega, by omega, ?_, ?_, by simpa using htake, by omega⟩
  · cases after with
    | nil => left; simp only [List.length_nil] at hlen; omega
    | cons c r => exact .inr ⟨c, by rw [hat]; simp, hstop c r rfl⟩
  · intro k hk hkq
    obtain ⟨j, rfl⟩ := Nat.exists_eq_add_of_le hk
    have hj : j < run.length := by omega
    exact ⟨run[j], by rw [hat, List.getElem?_append_left hj, List.getElem?_eq_getElem hj],
      hrun _ (List.getElem_mem hj)⟩

/-- Settles O7: `DigitRun` is the run of the digits. -/
theorem digitRunEndsAtFirstNonDigit : Obligations.DigitRunEndsAtFirstNonDigit :=
  fun text _ hp => run_ends_at_first_outside isDigit text hp

/-- Settles O60: `ArgRun` is the run of the characters that are no command start. -/
theorem argRunEndsAtFirstCommandStart : Obligations.ArgRunEndsAtFirstCommandStart := by
  unfold Obligations.ArgRunEndsAtFirstCommandStart
  intro text p hp
  simpa only [argRun, Bool.not_eq_true', Bool.not_eq_false'] using
    run_ends_at_first_outside (fun c => !isCmdStart c) text hp

/-! ### Counts (R52) -/

/-- A digit text's value is the sum of each digit times its power of ten. -/
theorem decVal_eq_sum (d : Text) : decVal d =
    ((List.range d.length).map (fun k => digitVal (d.getD k 0) * 10 ^ (d.length - 1 - k))).sum := by
  induction d using List.reverseRecOn with
  | nil => rfl
  | append_singleton d c ih =>
    have hshift : ∀ k ∈ List.range d.length,
        digitVal ((d ++ [c]).getD k 0) * 10 ^ (d.length - k) =
          digitVal (d.getD k 0) * 10 ^ (d.length - 1 - k) * 10 := fun k hk => by
      have hk : k < d.length := List.mem_range.mp hk
      rw [List.getD_append _ _ _ _ hk, show d.length - k = d.length - 1 - k + 1 by omega, pow_succ, mul_assoc]
    rw [decVal_concat, ih, List.length_append, List.length_singleton, List.range_succ, List.map_append,
      List.sum_append, Nat.add_sub_cancel, List.map_congr_left hshift, List.sum_map_mul_right]
    simp

/-- Leading zeros are ignored (92 D12). -/
theorem decVal_leading_zeros (k : Nat) (d : Text) : decVal (List.replicate k ch0 ++ d) = decVal d := by
  induction k with
  | zero => rfl
  | succ k ih =>
    rw [← ih]
    rfl

/-- Settles O8, from the sum, the leading zeros and what the encoder's digits denote. -/
theorem countIsDecimalValue : Obligations.CountIsDecimalValue :=
  ⟨decVal_eq_sum, decVal_leading_zeros,
    fun n => ⟨decVal_encodeNat n, encodeNat_ne_nil n, encodeNat_all_isDigit n⟩⟩

/-! ### `Decode` and the scans, by what they find (R60, R61, R66) -/

section Scans

variable {text s : Text} {p q used : Nat} {c : Byte} {i : Instr} {k : ErrorKind}

theorem decode_eq_endOfText : decode text p = .endOfText ↔ text.length ≤ p := by
  rw [← List.drop_eq_nil_iff, decode]
  cases text.drop p with
  | nil => simp
  | cons c s => rcases h : decodeCmd c s with e | ⟨i, used⟩ <;> simp [h]

theorem decode_eq_bad : decode text p = .bad k ↔ ∃ c s, text.drop p = c :: s ∧ decodeCmd c s = .error k := by
  rw [decode]
  cases text.drop p with
  | nil => simp
  | cons c s => rcases h : decodeCmd c s with e | ⟨i, used⟩ <;> simp [h]

theorem decode_eq_command : decode text p = .command i q ↔
    ∃ c s used, text.drop p = c :: s ∧ decodeCmd c s = .ok (i, used) ∧ p + 1 + used = q := by
  rw [decode]
  cases text.drop p with
  | nil => simp
  | cons c s => rcases h : decodeCmd c s with e | ⟨i, used⟩ <;> simp [h]

/-- The number the scan of a text carries is how many characters it passes over. -/
theorem commandsFrom_eq_drop (n : Nat) (s : Text) : commandsFrom n s = commandsOf (s.drop n) := by
  induction s generalizing n with
  | nil => cases n <;> rfl
  | cons c s ih =>
    cases n with
    | zero => rfl
    | succ n => exact ih n

theorem decodeChainFrom_eq_drop (n : Nat) (s : Text) : decodeChainFrom n s = decodeChain (s.drop n) := by
  induction s generalizing n with
  | nil => cases n <;> rfl
  | cons c s ih =>
    cases n with
    | zero => rfl
    | succ n => exact ih n

theorem commandsOf_cons_error (h : decodeCmd c s = .error k) : commandsOf (c :: s) = .error k := by
  simp [commandsOf, commandsFrom, h]

theorem commandsOf_cons_ok (h : decodeCmd c s = .ok (i, used)) :
    commandsOf (c :: s) = (commandsOf (s.drop used)).map (fun is => i :: is) := by
  rw [← commandsFrom_eq_drop, commandsOf]
  simp only [commandsFrom, h]
  cases commandsFrom used s <;> rfl

theorem decodeChain_cons_ok {cmd : ChainCmd} (h : decodeChainCmd c s = .ok (cmd, used)) :
    decodeChain (c :: s) = (decodeChain (s.drop used)).map (fun cmds => cmd :: cmds) := by
  rw [← decodeChainFrom_eq_drop, decodeChain]
  simp only [decodeChainFrom, h]
  cases decodeChainFrom used s <;> rfl

end Scans

/-- Settles O5: each format's decoder gives `ReadFrom`, and `decode_command` reads it off. -/
theorem decodeMovesForward : Obligations.DecodeMovesForward := fun _ _ _ _ h => decode_command h

/-- Settles O6: the scan from `p` branches on the same `decodeCmd` as `Decode` at `p`. -/
theorem scanIsRepeatedDecode : Obligations.ScanIsRepeatedDecode := by
  unfold Obligations.ScanIsRepeatedDecode
  refine fun text p => ⟨decode_eq_endOfText, fun h => ?_, fun k h => ?_, fun i q h => ?_⟩
  · rw [List.drop_eq_nil_iff.mpr (decode_eq_endOfText.mp h)]
    rfl
  · obtain ⟨c, s, hs, hc⟩ := decode_eq_bad.mp h
    rw [hs, commandsOf_cons_error hc]
  · obtain ⟨c, s, used, hs, hc, rfl⟩ := decode_eq_command.mp h
    rw [hs, commandsOf_cons_ok hc, ← List.drop_drop, ← List.drop_drop, hs]
    rfl

/-! ### The text of a command: its opcode character and its operand (R54 to R59, R62) -/

/-- What the text of a command holds after its opcode character. -/
def operand (i : Instr) : Text := (encode i).tail

theorem encode_eq (i : Instr) : encode i = opcodeChar i :: operand i := by cases i <;> rfl

theorem isCmdStart_opcodeChar (i : Instr) : isCmdStart (opcodeChar i) = true := by cases i <;> rfl

theorem encode_toInstr (k : ChainCmd) : encode k.toInstr = encodeChainCmd k := by
  cases k with
  | logical op p => cases op <;> rfl
  | _ => rfl

/-- A chain's text is the text of its opcode-table rows. -/
theorem encodeChain_eq (chain : List ChainCmd) :
    encodeChain chain = (chain.map ChainCmd.toInstr).flatMap encode := by
  simp [encodeChain, List.flatMap_map, encode_toInstr]

/-- A text before which an operand ends: it is empty or begins with a command-start character. -/
def EndsOperand (rest : Text) : Prop := ∀ c r, rest = c :: r → isCmdStart c = true

theorem EndsOperand.not_digit {rest : Text} (hr : EndsOperand rest) :
    ∀ c r, rest = c :: r → isDigit c = false :=
  fun c r h => not_isDigit_of_isCmdStart (hr c r h)

theorem endsOperand_encoded (cmds : List Instr) : EndsOperand (cmds.flatMap encode) := by
  intro c r h
  cases cmds with
  | nil => cases h
  | cons i is =>
    rw [List.flatMap_cons, encode_eq, List.cons_append, List.cons.injEq] at h
    exact h.1 ▸ isCmdStart_opcodeChar i

/-! ### Each format reads back what the encoder writes -/

section RoundTrip

variable {rest : Text} (hr : EndsOperand rest)
include hr

theorem decodeN_encodeNat (mk : Nat → Instr) (n : Nat) :
    decodeN mk (encodeNat n ++ rest) = .ok (mk n, (encodeNat n).length) := by
  rw [decodeN_append (encodeNat_ne_nil n) (encodeNat_all_isDigit n) hr.not_digit, decVal_encodeNat]

theorem decodeByteSwap_encodeNat {n : Nat} (hn : n % 8 = 0) :
    decodeByteSwap (encodeNat n ++ rest) = .ok (.byteSwap n, (encodeNat n).length) := by
  simp [decodeByteSwap, digitRun_append (encodeNat_all_isDigit n) hr.not_digit, encodeNat_ne_nil, hn]

theorem decodeInsert_encodeBits (lit : Bits) :
    decodeInsert (encodeBits lit ++ rest) = .ok (.insert lit, (encodeBits lit).length) := by
  have hlit : ∀ c ∈ encodeBits lit, isCmdStart c = false := fun c hc => by
    obtain ⟨x, rfl⟩ := mem_encodeBits hc
    exact isCmdStart_bitChar x
  simp [decodeInsert, argRun_append hlit hr]

theorem decodeL_encode (mk : Nat → Pattern → Instr) (n : Nat) (p : Pattern) :
    decodeL mk (encodeNat n ++ chColon :: encodeBits p.bits ++ rest) =
      .ok (mk n p, (encodeNat n ++ chColon :: encodeBits p.bits).length) := by
  rw [decodeL_append p (encodeNat_ne_nil n) (encodeNat_all_isDigit n) hr, decVal_encodeNat,
    List.length_append, List.length_cons, encodeBits_length, Nat.add_right_comm, Nat.add_assoc]

theorem decodeCL_encode (op : LogicOp) (p : Pattern) :
    decodeCL op (chColon :: encodeBits p.bits ++ rest) =
      .ok (.logical op p, (chColon :: encodeBits p.bits).length) := by
  rw [decodeCL_append p hr, List.length_cons, encodeBits_length, Nat.add_comm]

/-- A chain command's text is read back in a chain. -/
theorem decodeChainCmd_encode (k : ChainCmd) :
    decodeChainCmd (opcodeChar k.toInstr) (operand k.toInstr ++ rest) =
      .ok (k, (operand k.toInstr).length) := by
  cases k with
  | logical op p =>
    cases op with
    | xor => exact decodeCL_encode hr .xor p
    | and => exact decodeCL_encode hr .and p
    | or => exact decodeCL_encode hr .or p
  | _ => rfl

end RoundTrip

theorem decodeChain_encodeChain (chain : List ChainCmd) : decodeChain (encodeChain chain) = .ok chain := by
  rw [encodeChain_eq]
  induction chain with
  | nil => rfl
  | cons k ks ih =>
    rw [List.map_cons, List.flatMap_cons, encode_eq, List.cons_append,
      decodeChain_cons_ok (decodeChainCmd_encode (endsOperand_encoded _) k), List.drop_left, ih]
    rfl

/-- Settles O4: a chain row's text is the text of the chain that holds it alone. -/
theorem decodeChainOfEncodedChain : Obligations.DecodeChainOfEncodedChain := by
  refine ⟨decodeChain_encodeChain, fun k => ?_⟩
  rw [show encode k.toInstr = encodeChain [k] by simp [encodeChain, encode_toInstr]]
  exact decodeChain_encodeChain [k]

theorem ne_close_of_mem_encodeCL {op c : Byte} {p : Pattern} (hop : op ≠ chClose) (h : c ∈ encodeCL op p) :
    c ≠ chClose := by
  simp only [encodeCL, List.mem_cons] at h
  rcases h with rfl | rfl | h
  · exact hop
  · decide
  · obtain ⟨x, rfl⟩ := mem_encodeBits h
    exact bitChar_ne_close x

/-- A block's first `]` is the one that closes it: its chain's text holds none. -/
theorem ne_close_of_mem_encodeChain {chain : List ChainCmd} {c : Byte} (h : c ∈ encodeChain chain) :
    c ≠ chClose := by
  obtain ⟨k, -, h⟩ := List.mem_flatMap.mp h
  cases k with
  | logical op p =>
    cases op with
    | xor => exact ne_close_of_mem_encodeCL (by decide) h
    | and => exact ne_close_of_mem_encodeCL (by decide) h
    | or => exact ne_close_of_mem_encodeCL (by decide) h
  | _ => rw [List.mem_singleton.mp h]; decide

theorem decodeBlock_encode {rest : Text} (hr : EndsOperand rest) (chain : List ChainCmd) (n : Nat) :
    decodeBlock (encodeChain chain ++ chClose :: encodeNat n ++ rest) =
      .ok (.block chain n, (encodeChain chain ++ chClose :: encodeNat n).length) := by
  have hin : ∀ c ∈ encodeChain chain, (c != chClose) = true := fun c hc =>
    bne_iff_ne.mpr (ne_close_of_mem_encodeChain hc)
  have hend : ∀ c r, chClose :: (encodeNat n ++ rest) = c :: r → (c != chClose) = false := by
    intro c r e
    cases e
    rfl
  have hchain : chainText (encodeChain chain ++ chClose :: (encodeNat n ++ rest)) = encodeChain chain :=
    takeWhile_run hin hend
  have hafter : afterClose (encodeChain chain ++ chClose :: (encodeNat n ++ rest)) = encodeNat n ++ rest := by
    rw [afterClose, dropWhile_run hin hend]
    rfl
  rw [List.append_assoc, List.cons_append]
  simp [decodeBlock, hchain, hafter, decodeChain_encodeChain, encodeNat_ne_nil,
    digitRun_append (encodeNat_all_isDigit n) hr.not_digit, Nat.add_assoc, Nat.add_comm 1]

/-! ### Decode and encode agree (R60, R62) -/

/-- A well-formed top-level command's text is read back, whatever text its operand ends before. -/
theorem decodeCmd_encode {rest : Text} (hr : EndsOperand rest) {i : Instr} (ht : i.topLevel = true)
    (hw : i.wf = true) : decodeCmd (opcodeChar i) (operand i ++ rest) = .ok (i, (operand i).length) := by
  cases i with
  | take n => exact decodeN_encodeNat hr .take n
  | skip n => exact decodeN_encodeNat hr .skip n
  | insert lit => exact decodeInsert_encodeBits hr lit
  | invert n => exact decodeN_encodeNat hr .invert n
  | reverseBits n => exact decodeN_encodeNat hr .reverseBits n
  | byteSwap n => exact decodeByteSwap_encodeNat hr (by simpa [Instr.wf] using hw)
  | logicXor n p => exact decodeL_encode hr .logicXor n p
  | logicAnd n p => exact decodeL_encode hr .logicAnd n p
  | logicOr n p => exact decodeL_encode hr .logicOr n p
  | block chain n => exact decodeBlock_encode hr chain n
  | _ => cases ht

/-- Settles O2: `Decode` at the command's position finds its opcode character and reads back its operand. -/
theorem decodeOfEncodeIsTheCommand : Obligations.DecodeOfEncodeIsTheCommand := by
  unfold Obligations.DecodeOfEncodeIsTheCommand
  intro i before rest ht hw hrest
  have hr : EndsOperand rest := by
    rintro c r rfl
    obtain h | ⟨d, t, h, hd⟩ := hrest
    · cases h
    · cases h; exact hd
  refine decode_eq_command.mpr ⟨opcodeChar i, operand i ++ rest, _, ?_, decodeCmd_encode hr ht hw, ?_⟩
  · rw [List.append_assoc, List.drop_left, encode_eq, List.cons_append]
  · rw [encode_eq, List.length_cons]; omega

/-- The round trip of a program, one command at a time: the text of the commands that follow ends the
operand of the first. -/
theorem commandsOf_encoded (cmds : List Instr) (h : ∀ i ∈ cmds, i.topLevel = true ∧ i.wf = true) :
    commandsOf (cmds.flatMap encode) = .ok cmds := by
  induction cmds with
  | nil => rfl
  | cons i is ih =>
    obtain ⟨⟨ht, hw⟩, his⟩ := List.forall_mem_cons.mp h
    rw [List.flatMap_cons, encode_eq, List.cons_append,
      commandsOf_cons_ok (decodeCmd_encode (endsOperand_encoded is) ht hw), List.drop_left, ih his]
    rfl

/-- Settles O3: the scan that gives the list raises no error. -/
theorem commandsOfEncodedProgram : Obligations.CommandsOfEncodedProgram := fun cmds h => by
  have hok := commandsOf_encoded cmds h
  exact ⟨hok, by rw [wfText, hok]⟩

/-- Settles O1: each text is decoded by evaluation. -/
theorem writtenOutWordsDecode : Obligations.WrittenOutWordsDecode := by
  unfold Obligations.WrittenOutWordsDecode
  decide

end Sys2Proof

/-! PROOFS. The bit packer and unpacker (40_bit_packing.md): the bits of a packed byte, the bit at every
index of both directions, and the two round trips. -/

namespace Sys2Proof.Machine

/-! ### The bits of a byte (R8, R72) -/

/-- Two bytes that agree on every bit, counted from the most significant as R8 does, are equal. -/
theorem byte_ext {a b : Byte} (h : ∀ k, k < 8 → a.getLsbD (7 - k) = b.getLsbD (7 - k)) : a = b :=
  BitVec.eq_of_getLsbD_eq fun i hi => by
    have hk := h (7 - i) (by omega)
    rwa [show 7 - (7 - i) = i by omega] at hk

/-- The sum of R72 is a number in binary, whose digits from the least significant up are the chunk's bits
from the last down. -/
theorem packedSum_eq_ofBits (s : Bits) (j : Nat) :
    ((List.range 8).map (fun k => (s.getD (8 * j + k) false).toNat * 2 ^ (7 - k))).sum =
      Nat.ofBits (fun i : Fin 8 => s.getD (8 * j + (7 - i)) false) := by
  simp [List.range_succ, Nat.ofBits_succ]
  omega

/-- The sum of R72 fits in a byte. -/
theorem packedByte_toNat (s : Bits) (j : Nat) :
    (packedByte s j).toNat =
      ((List.range 8).map (fun k => (s.getD (8 * j + k) false).toNat * 2 ^ (7 - k))).sum := by
  rw [packedByte, BitVec.toNat_ofNat, packedSum_eq_ofBits]
  exact Nat.mod_eq_of_lt (Nat.ofBits_lt_two_pow _)

theorem packedByte_getLsbD (s : Bits) (j : Nat) {k : Nat} (hk : k < 8) :
    (packedByte s j).getLsbD (7 - k) = s.getD (8 * j + k) false := by
  rw [← BitVec.testBit_toNat, packedByte_toNat, packedSum_eq_ofBits, Nat.testBit_ofBits_lt _ _ (by omega)]
  rw [show 7 - (7 - k) = k by omega]

/-! ### The bit at an index (R71, R72) -/

theorem byteBits_getD (b : Byte) {i : Nat} (hi : i < 8) : (byteBits b).getD i false = b.getLsbD (7 - i) := by
  simp [byteBits, hi]

/-- The bit formula of R71 at every index: past the end both sides are 0. -/
theorem packToBits_getD (b : Bytes) (i : Nat) :
    (packToBits b).getD i false = (b.getD (i / 8) 0).getLsbD (7 - i % 8) := by
  induction b generalizing i with
  | nil => simp [packToBits]
  | cons x xs ih =>
    rw [show packToBits (x :: xs) = byteBits x ++ packToBits xs from List.flatMap_cons]
    by_cases hi : i < 8
    · rw [List.getD_append _ _ _ _ (by simpa using hi), byteBits_getD x hi, Nat.div_eq_of_lt hi,
        Nat.mod_eq_of_lt hi, List.getD_cons_zero]
    · rw [List.getD_append_right _ _ _ _ (by simpa using hi), byteBits_length, ih,
        show i / 8 = (i - 8) / 8 + 1 by omega, List.getD_cons_succ, show (i - 8) % 8 = i % 8 by omega]

theorem unpackFromBits_getD (s : Bits) {j : Nat} (hj : j < ceil8 s.length) :
    (unpackFromBits s).getD j 0 = packedByte s j := by
  simp [unpackFromBits, hj]

/-- The bit placement of R72 at every index: the pad bits, and all bits past the last byte, are 0. -/
theorem unpackFromBits_getLsbD (s : Bits) (i : Nat) :
    ((unpackFromBits s).getD (i / 8) 0).getLsbD (7 - i % 8) = s.getD i false := by
  by_cases hj : i / 8 < ceil8 s.length
  · rw [unpackFromBits_getD s hj, packedByte_getLsbD s _ (Nat.mod_lt i (by decide)), Nat.div_add_mod]
  · have hi : s.length ≤ i := by unfold ceil8 at hj; omega
    rw [List.getD_eq_default _ _ (by simpa using hj), List.getD_eq_default _ _ hi]
    exact BitVec.getLsbD_zero

/-! ### The round trips (R73, R74) -/

/-- R73, one byte at a time: the eight bits of byte `j` of the packed sequence make that byte again. -/
theorem packedByte_packToBits (b : Bytes) (j : Nat) : packedByte (packToBits b) j = b.getD j 0 :=
  byte_ext fun k hk => by
    rw [packedByte_getLsbD _ _ hk, packToBits_getD, show (8 * j + k) / 8 = j by omega,
      show (8 * j + k) % 8 = k by omega]

/-- Bit for bit, packing undoes unpacking: the added bits read as the 0 that stands past the end. -/
theorem packToBits_unpackFromBits_getD (s : Bits) (i : Nat) :
    (packToBits (unpackFromBits s)).getD i false = s.getD i false := by
  rw [packToBits_getD, unpackFromBits_getLsbD]

theorem getD_append_replicate_false (s : Bits) (n i : Nat) :
    (s ++ List.replicate n false).getD i false = s.getD i false := by
  by_cases hi : i < s.length
  · exact List.getD_append _ _ _ _ hi
  · rw [List.getD_append_right _ _ _ _ (by omega), List.getD_eq_default s _ (by omega),
      List.getD_eq_getElem?_getD, List.getElem?_getD_replicate_default_eq]

/-- Chunks of one length with the same bits are equal. -/
theorem bits_ext {s t : Bits} (hl : s.length = t.length) (h : ∀ i, s.getD i false = t.getD i false) : s = t :=
  List.ext_getElem hl fun i hs ht => by
    rw [← List.getD_eq_getElem s false hs, ← List.getD_eq_getElem t false ht, h]

theorem packToBits_unpackFromBits (s : Bits) :
    packToBits (unpackFromBits s) = s ++ List.replicate (8 * ceil8 s.length - s.length) false := by
  refine bits_ext ?_ fun i => ?_
  · simp only [packToBits_length, unpackFromBits_length, List.length_append, List.length_replicate, ceil8]
    omega
  · rw [packToBits_unpackFromBits_getD, getD_append_replicate_false]

/-- Settles O16: the formula at every index, with the bit of the byte written as a quotient and a remainder. -/
theorem packToBitsFormula : Obligations.PackToBitsFormula := fun b => by
  refine ⟨packToBits_length b, fun i hi => ?_⟩
  have hlen : i < (packToBits b).length := by simpa using hi
  rw [List.getElem?_eq_getElem hlen, ← List.getD_eq_getElem _ false hlen, packToBits_getD,
    ← BitVec.testBit_toNat, Nat.testBit_eq_decide_div_mod_eq]

/-- Settles O17: the bit placement at every index gives the bits of `S` and the pad bits alike. -/
theorem unpackFromBitsFormula : Obligations.UnpackFromBitsFormula := fun s => by
  refine ⟨unpackFromBits_length s, fun j hj => ?_, fun i _ => unpackFromBits_getLsbD s i, fun i hi _ => ?_⟩
  · rw [unpackFromBits_getD s hj, packedByte_toNat]
  · rw [unpackFromBits_getLsbD, List.getD_eq_default _ _ hi]

/-- Settles O18: the unpacked sequence is as long, and each of its bytes is the packed one. -/
theorem unpackOfPackIsIdentity : Obligations.UnpackOfPackIsIdentity := fun b => by
  have hlen : ceil8 (packToBits b).length = b.length := by
    rw [packToBits_length, ceil8]
    omega
  refine List.ext_getElem (by simpa using hlen) fun j hj hb => ?_
  rw [← List.getD_eq_getElem _ 0 hj, ← List.getD_eq_getElem _ 0 hb,
    unpackFromBits_getD _ (by omega), packedByte_packToBits]

/-- Settles O19: a whole number of bytes has a multiple of 8 bits, so no other length comes back. -/
theorem packOfUnpackAddsPadZeros : Obligations.PackOfUnpackAddsPadZeros := fun s => by
  refine ⟨packToBits_unpackFromBits s, fun hm heq => hm ?_⟩
  have hlen := congrArg List.length heq
  rw [packToBits_length] at hlen
  omega

end Sys2Proof.Machine

/-! PROOFS. The pattern text and the operands that hold one (41_pattern.md R77): what `make_pattern` gives,
and which error a logical command's operand raises (R56, R59, in the order of 92 D8 and D9). -/

namespace Sys2Proof

/-! ### `make_pattern` (R77) -/

theorem makePattern_eq_error {text : Text} {k : ErrorKind} :
    makePattern text = .error k ↔ k = .invalidPattern ∧ (text = [] ∨ ∃ c ∈ text, isBin c = false) := by
  cases text with
  | nil => simp [makePattern, eq_comm (a := k)]
  | cons c r =>
    have hall : (c :: r).all isBin = false ↔ ∃ d ∈ c :: r, isBin d = false := by
      simp only [List.all_eq_false, Bool.not_eq_true]
    rw [← hall, makePattern]
    split
    next hbin => simp only [hbin, reduceCtorEq, or_self, and_false]
    next hbin => simp [hbin, eq_comm (a := k)]

theorem makePattern_ok_bits {text : Text} {p : Pattern} (h : makePattern text = .ok p) :
    p.bits = bitsOf text := by
  cases text with
  | nil => cases h
  | cons c r =>
    rw [makePattern] at h
    split at h
    · cases h; rfl
    · cases h

/-! ### The errors of a logical command's operand (R56, R59) -/

/-- What format L asks of an argument run before it looks at the pattern: one `:`, and a count before it. -/
def CountThenColon (r : Text) : Prop :=
  r.count chColon = 1 ∧ beforeColon r ≠ [] ∧ ∀ d ∈ beforeColon r, isDigit d = true

/-- What format CL asks of an argument run before it looks at the pattern: one `:`, with nothing before it. -/
def OnlyColon (r : Text) : Prop := r.count chColon = 1 ∧ beforeColon r = []

section Operands

variable {s : Text} {k : ErrorKind} {c : Byte}

/-- Format L raises `make_pattern`'s error once its other checks pass, and InvalidArgument if one fails. -/
theorem decodeL_eq_error {mk : Nat → Pattern → Instr} : decodeL mk s = .error k ↔
    CountThenColon (argRun s) ∧ makePattern (afterColon (argRun s)) = .error k ∨
      ¬ CountThenColon (argRun s) ∧ k = .invalidArgument := by
  rw [decodeL]
  split
  next hcolons => simp [CountThenColon, hcolons, eq_comm (a := k)]
  next hcolons =>
    split
    next hcount =>
      have hbad : ¬ CountThenColon (argRun s) := fun ⟨_, hne, hdigits⟩ =>
        hcount.elim hne fun h => by simp [List.all_eq_true.mpr hdigits] at h
      simp [hbad, eq_comm (a := k)]
    next hcount =>
      have hgood : CountThenColon (argRun s) := by
        simpa [CountThenColon, not_or] using And.intro (not_not.mp hcolons) hcount
      cases h : makePattern (afterColon (argRun s)) <;> simp [hgood]

/-- Format CL raises `make_pattern`'s error once its other checks pass, and InvalidArgument if one fails. -/
theorem decodeCL_eq_error {op : LogicOp} : decodeCL op s = .error k ↔
    OnlyColon (argRun s) ∧ makePattern (afterColon (argRun s)) = .error k ∨
      ¬ OnlyColon (argRun s) ∧ k = .invalidArgument := by
  rw [decodeCL]
  split
  next hcolons => simp [OnlyColon, hcolons, eq_comm (a := k)]
  next hcolons =>
    split
    next hcount => simp [OnlyColon, hcount, eq_comm (a := k)]
    next hcount =>
      have hgood : OnlyColon (argRun s) := ⟨not_not.mp hcolons, not_not.mp hcount⟩
      cases h : makePattern (afterColon (argRun s)) <;> simp [hgood]

theorem decodeCmd_logical (hc : c = chX ∨ c = chA ∨ c = chO) : ∃ mk, decodeCmd c s = decodeL mk s := by
  rcases hc with rfl | rfl | rfl
  · exact ⟨.logicXor, rfl⟩
  · exact ⟨.logicAnd, rfl⟩
  · exact ⟨.logicOr, rfl⟩

theorem decodeChainCmd_logical (hc : c = chX ∨ c = chA ∨ c = chO) :
    ∃ op, decodeChainCmd c s = decodeCL op s := by
  rcases hc with rfl | rfl | rfl
  · exact ⟨.xor, rfl⟩
  · exact ⟨.and, rfl⟩
  · exact ⟨.or, rfl⟩

end Operands

/-- Settles O14: the other checks raise InvalidArgument, so an InvalidPattern is `make_pattern`'s. -/
theorem invalidPatternExactly : Obligations.InvalidPatternExactly := by
  refine ⟨fun text => ?_, fun text k h => (makePattern_eq_error.mp h).1,
    fun text p => makePattern_ok_bits, fun c s hc => ?_, fun c s hc => ?_⟩
  · simp [makePattern_eq_error]
  · obtain ⟨mk, hmk⟩ := decodeCmd_logical (s := s) hc
    simp [hmk, decodeL_eq_error, CountThenColon, and_assoc]
  · obtain ⟨op, hop⟩ := decodeChainCmd_logical (s := s) hc
    simp [hop, decodeCL_eq_error, OnlyColon, and_assoc]

end Sys2Proof

/-! PROOFS. The sequencer (42_sequencer.md): what a command does inside the window, the steps of a run, one
pass as a whole, and what whole runs do: the parse-once replay, when they end, and that their course does
not depend on the input bits. -/

namespace Sys2Proof

/-- What `Decode` finds at a position from which the scan of the text raises no error (R66). -/
theorem decode_of_commandsOf {text : Text} {p : Nat} {is : List Instr}
    (h : commandsOf (text.drop p) = .ok is) :
    (is = [] ∧ decode text p = .endOfText) ∨
      ∃ i q js, is = i :: js ∧ decode text p = .command i q ∧ commandsOf (text.drop q) = .ok js := by
  obtain ⟨-, hend, hbad, hcmd⟩ := scanIsRepeatedDecode text p
  cases hd : decode text p with
  | endOfText =>
    rw [hend hd] at h; cases h
    exact .inl ⟨rfl, rfl⟩
  | bad k => rw [hbad k hd] at h; cases h
  | command i q =>
    rw [hcmd i q hd] at h
    cases hq : commandsOf (text.drop q) with
    | error e => rw [hq] at h; cases h
    | ok js =>
      rw [hq] at h; cases h
      exact .inr ⟨i, q, js, rfl, rfl, hq⟩

/-- Only the empty text is the program without commands. -/
theorem commandsOf_eq_ok_nil {text : Text} : commandsOf text = .ok [] ↔ text = [] := by
  refine ⟨fun h => ?_, fun h => h ▸ rfl⟩
  rcases decode_of_commandsOf (text := text) (p := 0) h with ⟨-, hd⟩ | ⟨i, q, js, he, -, -⟩
  · exact List.length_eq_zero_iff.mp (Nat.le_zero.mp (decode_eq_endOfText.mp hd))
  · cases he

end Sys2Proof

namespace Sys2Proof.Machine

/-! ### The range (R82) -/

theorem rangeEnd_of_outside {e : Int} {len : Nat} (h : e ≤ 0 ∨ (len : Int) < e) : rangeEnd e len = len :=
  if_pos h

theorem rangeEnd_of_inside {e : Int} {len : Nat} (h0 : 0 < e) (h1 : e ≤ len) : rangeEnd e len = e :=
  if_neg (by omega)

/-- When `NormaliseRange` fails (R82, 92 D22). -/
theorem normaliseRange_eq_rangeError {a e : Int} {len : Nat} (h : a < 0 ∨ (len : Int) < a ∨ rangeEnd e len < a) :
    normaliseRange a e len = .error .rangeError := by
  unfold normaliseRange
  by_cases hstart : a < 0 ∨ (len : Int) < a
  · rw [if_pos hstart]
  · rw [if_neg hstart, if_pos (by omega)]

/-- Settles O40: by whether ARG_END names an end inside the input. -/
theorem rangeNormalisation : Obligations.RangeNormalisation := by
  unfold Obligations.RangeNormalisation
  intro a e len
  refine ⟨fun he h0 hlen => ?_, fun h0 hlen ha hae => ?_, fun h => ?_, fun h0 hlen hea => ?_⟩
  · have hend := rangeEnd_of_outside he
    exact normaliseRange_eq_ok.mpr ⟨⟨h0, hlen, by omega⟩, rfl, by omega⟩
  · have hend := rangeEnd_of_inside h0 hlen
    exact normaliseRange_eq_ok.mpr ⟨⟨ha, by omega, by omega⟩, rfl, by omega⟩
  · exact normaliseRange_eq_rangeError (by omega)
  · have hend := rangeEnd_of_inside h0 hlen
    exact normaliseRange_eq_rangeError (by omega)

/-! ### Execute inside the window (R88) -/

/-- With the window and the cursor as R18 and R20 say, no command reads outside the window (R37). -/
theorem readFails_of_windowOk {s : State} (hw : windowOk s) (i : Instr) : readFails i s = false := by
  obtain ⟨hrs, hpos, hre⟩ := hw
  have hm := moved_le i (s.re - s.pos)
  have hread : memRead s s.pos (moved i (s.re - s.pos)) = some (inputSlice s s.pos (moved i (s.re - s.pos))) :=
    memRead_eq_some.mpr ⟨⟨hrs, by omega, by omega⟩, rfl⟩
  simp [readFails, hread]

theorem exec_of_windowOk {s : State} (hw : windowOk s) (i : Instr) : exec i s = .next (afterExec i s) :=
  exec_eq_next.mpr ⟨readFails_of_windowOk hw i, rfl⟩

/-- Settles O34: the table is `exec_topLevel`, and inside the window every command answers `afterExec`. -/
theorem executeFollowsTheCommandTable : Obligations.ExecuteFollowsTheCommandTable := by
  unfold Obligations.ExecuteFollowsTheCommandTable
  exact ⟨fun i s hi hw h0 => exec_topLevel hi hw h0, fun i s hw => ⟨_, exec_of_windowOk hw i, rfl, rfl⟩⟩

/-! ### The steps of a run (R84 to R90) -/

/-- The start of a pass with nothing left to do ends the run (R84, R90). -/
theorem step_exhausted {s : State} (hr : inRun s) (ht : s.tp = 0) (hx : exhausted s = true) :
    step s = .next (finishRun s) := by
  rw [step_run hr, runStep, if_pos ⟨ht, hx⟩]

/-- A pass ends at the end of the text (R85), or by the early stop at a command that decodes (R86, 92 D5). -/
theorem step_passEnd {s : State} (hr : inRun s) (hx : ¬(s.tp = 0 ∧ exhausted s = true))
    (h : decode s.prog s.tp = .endOfText ∨ (s.re ≤ s.pos ∧ ∃ i q, decode s.prog s.tp = .command i q)) :
    step s = .next (endPass s) := by
  rw [step_run hr, runStep, if_neg hx]
  rcases h with hd | ⟨hp, i, q, hd⟩
  · simp only [hd]
  · simp only [hd, if_pos hp]

/-- The state after a step that executes `i`, `q` being the position after it (R86, R89 (a)). -/
def afterCommand (i : Instr) (q : Nat) (s : State) : State :=
  { afterExec i (emitTrace i s) with tp := q }

section AfterCommand

variable (i : Instr) (q : Nat) (s : State)

@[simp] theorem afterCommand_inb : (afterCommand i q s).inb = s.inb := by simp [afterCommand, afterExec]
@[simp] theorem afterCommand_prog : (afterCommand i q s).prog = s.prog := by simp [afterCommand, afterExec]
@[simp] theorem afterCommand_status : (afterCommand i q s).status = s.status := by
  simp [afterCommand, afterExec]
@[simp] theorem afterCommand_hostIn : (afterCommand i q s).hostIn = s.hostIn := by
  simp [afterCommand, afterExec]
@[simp] theorem afterCommand_re : (afterCommand i q s).re = s.re := by simp [afterCommand, afterExec]
@[simp] theorem afterCommand_tp : (afterCommand i q s).tp = q := rfl
@[simp] theorem afterCommand_pass : (afterCommand i q s).pass = s.pass := by simp [afterCommand, afterExec]
@[simp] theorem afterCommand_pos :
    (afterCommand i q s).pos = s.pos + moved i (s.re - s.pos) := by simp [afterCommand, afterExec]
@[simp] theorem afterCommand_out : (afterCommand i q s).out =
    s.out ++ appended i (inputSlice s s.pos (moved i (s.re - s.pos))) := by
  simp [afterCommand, afterExec, inputSlice, State.inbits]

end AfterCommand

theorem step_command {s : State} {i : Instr} {q : Nat} (hs : UnitInv s) (hr : inRun s) (hp : s.pos < s.re)
    (hd : decode s.prog s.tp = .command i q) : step s = .next (afterCommand i q s) := by
  have hw : windowOk (emitTrace i s) := by
    simpa only [windowOk, State.len, emitTrace_rs, emitTrace_pos, emitTrace_re, emitTrace_inb]
      using (hs.window hr.1).1
  rw [step_run hr, runStep_command hp hd]
  exact runCommand_eq_next.mpr ⟨readFails_of_windowOk hw i, rfl⟩

/-- Settles O36: `emitTrace` appends the record of R136, and `runCommand` is `exec`, then `tp`. -/
theorem stepRunsTheDecodedCommand : Obligations.StepRunsTheDecodedCommand := by
  unfold Obligations.StepRunsTheDecodedCommand
  intro s i q hr hp hd
  have htrace : traceWith i s =
      s.trace ++ if s.verbose || (s.verboseOnce && s.pass == 0) then [⟨s.pass, i⟩] else [] := by
    unfold traceWith traceGate
    split <;> simp
  rw [step_run hr, runStep_command hp hd, runCommand, emitTrace_eq, htrace]
  rfl

/-- Settles O39: it is the step `step_exhausted`. -/
theorem exhaustedRunReportsItsOutput : Obligations.ExhaustedRunReportsItsOutput := by
  unfold Obligations.ExhaustedRunReportsItsOutput
  intro s hr ht h
  exact step_exhausted hr ht (by simpa [exhausted] using h)

/-- Settles O38: the step is `endPass`, which ends the run exactly when the window is used up. -/
theorem stepEndsThePass : Obligations.StepEndsThePass := by
  unfold Obligations.StepEndsThePass
  intro s hr ht hprog h
  have hstep : step s = .next (endPass s) :=
    step_passEnd hr (fun hx => ht hx.1) (h.imp_left decode_eq_endOfText.mpr)
  have hx : exhausted s = decide (s.re ≤ s.pos) := by simp [exhausted, hprog]
  refine ⟨fun hp => ?_, fun hp => ?_⟩
  · rw [hstep, endPass, if_neg (by simpa [hx] using hp)]
  · rw [hstep, endPass, if_pos (by simpa [hx] using hp)]
    rfl

/-! ### One pass as a whole (R85, R86, R95) -/

/-- The commands that remain in a pass take one step each, until the window is used up or the text ends;
then the pass ends. Their effect on cursor and output is that of the replay. -/
theorem runSteps_commands {is : List Instr} {s : State} (hs : UnitInv s) (hr : inRun s)
    (hx : ¬(s.tp = 0 ∧ exhausted s = true)) (hc : commandsOf (s.prog.drop s.tp) = .ok is) :
    ∃ k u, k ≤ is.length ∧ runSteps k s = .next u ∧ inRun u ∧ step u = .next (endPass u) ∧
      u.pass = s.pass ∧ (u.pos, u.out) = replayPass s.inbits s.re is (s.pos, s.out) := by
  induction is generalizing s with
  | nil =>
    rcases decode_of_commandsOf hc with ⟨-, hd⟩ | ⟨i, q, js, he, -, -⟩
    · exact ⟨0, s, Nat.le_refl 0, rfl, hr, step_passEnd hr hx (.inl hd), rfl, rfl⟩
    · cases he
  | cons i is ih =>
    rcases decode_of_commandsOf hc with ⟨he, -⟩ | ⟨_, q, _, he, hd, hrest⟩
    · cases he
    · cases he
      by_cases hp : s.re ≤ s.pos
      · refine ⟨0, s, Nat.zero_le _, rfl, hr, step_passEnd hr hx (.inr ⟨hp, i, q, hd⟩), rfl, ?_⟩
        rw [replayPass, if_pos hp]
      · have hstep := step_command hs hr (Nat.not_le.mp hp) hd
        have hr' : inRun (afterCommand i q s) := by simpa [inRun] using hr
        have hq : q ≠ 0 := by have := decode_command hd; omega
        obtain ⟨k, u, hk, hrun, hru, hend, hpass, hout⟩ :=
          ih (everyStepKeepsTheInvariant _ _ hs hstep) hr' (fun hx' => hq hx'.1) (by simpa using hrest)
        refine ⟨k + 1, u, Nat.succ_le_succ hk, ?_, hru, hend, by simpa using hpass, ?_⟩
        · rw [runSteps_succ, hstep, andThen_next, hrun]
        · rw [hout, replayPass, if_neg hp]
          simp [State.inbits, inputSlice]

/-- The start of a pass of a run whose program is well-formed, with the commands `cmds` (R66, R84). -/
structure PassStart (cmds : List Instr) (s : State) : Prop where
  inv : UnitInv s
  run : inRun s
  start : s.tp = 0
  program : commandsOf s.prog = .ok cmds

/-- What one pass makes of the state `s` at its start: a pass more, the cursor and the output of the
replay's pass, and then the end of the run or the start of the next pass (R84, R85). -/
structure AfterPass (cmds : List Instr) (s t : State) : Prop where
  inv : UnitInv t
  inb : t.inb = s.inb
  re : t.re = s.re
  pass : t.pass = s.pass + 1
  replayed : (t.pos, t.out) = replayPass s.inbits s.re cmds (s.pos, s.out)
  ended : (s.re ≤ t.pos ∧ t.status = .doneOk) ∨ (t.pos < s.re ∧ PassStart cmds t)

theorem runSteps_keeps_unitInv {k : Nat} {s t : State} (hs : UnitInv s) (h : runSteps k s = .next t) :
    UnitInv t := runSteps_invariant everyStepKeepsTheInvariant k s t hs h

section Passes

variable {cmds : List Instr} {s : State}

/-- `ST = Exhausted` by the commands of the program (R24). -/
theorem PassStart.exhausted_iff (h : PassStart cmds s) : exhausted s = true ↔ s.re ≤ s.pos ∨ cmds = [] := by
  have hempty : s.prog = [] ↔ cmds = [] := by
    rw [← commandsOf_eq_ok_nil, h.program, Except.ok.injEq]
  simp [exhausted, hempty]

theorem PassStart.runSteps_ended (h : PassStart cmds s) (hx : s.re ≤ s.pos ∨ cmds = []) :
    runSteps 1 s = .next (finishRun s) := by
  rw [runSteps_succ, step_exhausted h.run h.start (h.exhausted_iff.mpr hx)]
  rfl

/-- A pass takes at most a step for each command and one for its end. -/
theorem PassStart.runSteps_pass (h : PassStart cmds s) (hx : ¬(s.re ≤ s.pos ∨ cmds = [])) :
    ∃ k t, k ≤ cmds.length + 1 ∧ runSteps k s = .next t ∧ AfterPass cmds s t := by
  have hx' : ¬exhausted s = true := mt h.exhausted_iff.mp hx
  obtain ⟨k, u, hk, hrun, hru, hend, hpass, hout⟩ :=
    runSteps_commands h.inv h.run (fun hs => hx' hs.2) (by rw [h.start]; exact h.program)
  have hrun' : runSteps (k + 1) s = .next (endPass u) := by
    rw [runSteps_add, hrun, andThen_next, runSteps_succ, hend]; rfl
  have hinv := runSteps_keeps_unitInv h.inv hrun'
  have hkeep := runConstants_runSteps h.run.2 hrun
  simp only [runConstants, Prod.mk.injEq] at hkeep
  obtain ⟨-, hinb, hprog, -, -, -, -, -, hre⟩ := hkeep
  have hprog0 : s.prog ≠ [] := fun h0 => hx' (by simp [exhausted, h0])
  have hux : exhausted u = decide (s.re ≤ u.pos) := by simp [exhausted, hprog, hre, hprog0]
  refine ⟨k + 1, endPass u, Nat.succ_le_succ hk, hrun', ?_⟩
  rcases endPass_cases u with ⟨hdone, e⟩ | ⟨hmore, e⟩
  · rw [e] at hinv ⊢
    exact ⟨hinv, hinb, hre, congrArg (· + 1) hpass, hout, .inl ⟨by simpa [hux] using hdone, rfl⟩⟩
  · rw [e] at hinv ⊢
    exact ⟨hinv, hinb, hre, congrArg (· + 1) hpass, hout,
      .inr ⟨by simpa [hux] using hmore, hinv, hru, rfl, by rw [← h.program, ← hprog]⟩⟩

end Passes

/-! ### The parse-once replay (R95) -/

section Replay

variable {inbits : Bits} {re : Nat} {cmds : List Instr} {st : Nat × Bits}

theorem replay_ended (h : re ≤ st.1 ∨ cmds = []) (fuel : Nat) : replay inbits re cmds fuel st = some st.2 := by
  cases fuel <;> simp only [replay, if_pos h]

theorem replay_zero (h : ¬(re ≤ st.1 ∨ cmds = [])) : replay inbits re cmds 0 st = none := if_neg h

theorem replay_succ (h : ¬(re ≤ st.1 ∨ cmds = [])) (fuel : Nat) :
    replay inbits re cmds (fuel + 1) st = replay inbits re cmds fuel (replayPass inbits re cmds st) :=
  if_neg h

end Replay

/-- When the replay from the start of a pass ends, the run ends with its output: pass by pass. -/
theorem PassStart.runSteps_replay {cmds : List Instr} {v : Bits} (fuel : Nat) {s : State}
    (h : PassStart cmds s) (hv : replay s.inbits s.re cmds fuel (s.pos, s.out) = some v) :
    ∃ k t, runSteps k s = .next t ∧ t.status = .doneOk ∧ t.out = v := by
  by_cases hx : s.re ≤ s.pos ∨ cmds = []
  · rw [replay_ended hx] at hv
    cases hv
    exact ⟨1, finishRun s, h.runSteps_ended hx, rfl, rfl⟩
  · cases fuel with
    | zero => rw [replay_zero hx] at hv; cases hv
    | succ fuel =>
      obtain ⟨k, t, -, hrun, hpass⟩ := h.runSteps_pass hx
      have hinbits : t.inbits = s.inbits := congrArg packToBits hpass.inb
      rw [replay_succ hx, ← hpass.replayed, ← hinbits, ← hpass.re] at hv
      rcases hpass.ended with ⟨hend, hdone⟩ | ⟨-, hnext⟩
      · rw [replay_ended (.inl (hpass.re.trans_le hend))] at hv
        cases hv
        exact ⟨k, t, hrun, hdone, rfl⟩
      · obtain ⟨k', t', hrun', hdone, hout⟩ := PassStart.runSteps_replay fuel hnext hv
        exact ⟨k + k', t', by rw [runSteps_add, hrun, andThen_next, hrun'], hdone, hout⟩

/-- Settles O55: OUT is the replay's output, and the invariant gives the result registers. -/
theorem runIsTheParseOnceReplay : Obligations.RunIsTheParseOnceReplay := by
  unfold Obligations.RunIsTheParseOnceReplay
  intro s cmds fuel v hs hr ht hc hv
  obtain ⟨k, t, hrun, hdone, rfl⟩ := PassStart.runSteps_replay fuel ⟨hs, hr, ht, hc⟩ hv
  obtain ⟨herr, houtb, hn⟩ := (runSteps_keeps_unitInv hs hrun).okResult hdone
  exact ⟨k, t, hrun, hdone, herr, rfl, houtb, by rw [hn, houtb, unpackFromBits_length, ceil8]⟩

/-! ### Progress (R87, R91) -/

theorem moved_pos {i : Instr} {n left : Nat} (hi : i.count? = some n) (hn : 1 ≤ n) (hl : 1 ≤ left) :
    1 ≤ moved i left := by
  simp [moved, hi]; omega

theorem moved_eq_zero {i : Instr} (h : ∀ n, i.count? = some n → n = 0) (left : Nat) : moved i left = 0 := by
  cases hi : i.count? with
  | none => simp [moved, hi]
  | some n => simp [moved, hi, h n hi]

section Cursor

variable {inbits : Bits} {re : Nat} {is : List Instr} {st : Nat × Bits}

theorem replayPass_cursor_le (h : st.1 ≤ re) :
    st.1 ≤ (replayPass inbits re is st).1 ∧ (replayPass inbits re is st).1 ≤ re := by
  induction is generalizing st with
  | nil => exact ⟨Nat.le_refl _, h⟩
  | cons i is ih =>
    rw [replayPass]
    split
    · exact ⟨Nat.le_refl _, h⟩
    · have hm := moved_le i (re - st.1)
      obtain ⟨hlow, hhigh⟩ := ih (st := (st.1 + moved i (re - st.1), _)) (by simp only; omega)
      exact ⟨Nat.le_trans (Nat.le_add_right _ _) hlow, hhigh⟩

/-- A pass with a count of at least 1 and a bit left moves the cursor (R91). -/
theorem replayPass_cursor_lt (hc : ∃ i ∈ is, ∃ n, i.count? = some n ∧ 1 ≤ n) (h : st.1 < re) :
    st.1 < (replayPass inbits re is st).1 := by
  induction is generalizing st with
  | nil => obtain ⟨i, hi, -⟩ := hc; cases hi
  | cons i is ih =>
    rw [replayPass, if_neg (Nat.not_le.mpr h)]
    have hm := moved_le i (re - st.1)
    have rest : ∀ st' : Nat × Bits, st'.1 = st.1 + moved i (re - st.1) →
        st.1 < (replayPass inbits re is st').1 := by
      intro st' hst'
      obtain ⟨hlow, -⟩ := replayPass_cursor_le (inbits := inbits) (is := is) (show st'.1 ≤ re by omega)
      obtain ⟨j, hj, n, hn, h1⟩ := hc
      rcases List.mem_cons.mp hj with rfl | hj
      · have hmove : 1 ≤ moved j (re - st.1) := moved_pos hn h1 (by omega)
        omega
      · by_cases hleft : st'.1 < re
        · have hlt := ih ⟨j, hj, n, hn, h1⟩ hleft
          omega
        · omega
    exact rest _ rfl

end Cursor

/-- A run whose program holds a count of at least 1 ends: each pass moves the cursor (R91). -/
theorem PassStart.terminates {cmds : List Instr} (hc : ∃ i ∈ cmds, ∃ n, i.count? = some n ∧ 1 ≤ n)
    {s : State} (h : PassStart cmds s) :
    ∃ k t, k ≤ (s.re - s.pos) * (cmds.length + 1) + 1 ∧ runSteps k s = .next t ∧ t.status = .doneOk ∧
      t.pos = s.re ∧ t.pass ≤ s.pass + (s.re - s.pos) := by
  obtain ⟨-, hpos, -⟩ := (h.inv.window h.run.1).1
  have hne : cmds ≠ [] := by rintro rfl; obtain ⟨i, hi, -⟩ := hc; cases hi
  rcases hpos.eq_or_lt with hend | hleft
  · exact ⟨1, finishRun s, Nat.le_add_left 1 _, h.runSteps_ended (.inl hend.ge), rfl, hend, Nat.le_add_right _ _⟩
  · obtain ⟨k, t, hk, hrun, hpass⟩ := h.runSteps_pass (by simp [hne, hleft])
    have hcursor : t.pos = (replayPass s.inbits s.re cmds (s.pos, s.out)).1 := congrArg Prod.fst hpass.replayed
    have hmove : s.pos < t.pos := hcursor ▸ replayPass_cursor_lt (st := (s.pos, s.out)) hc hleft
    have hhigh : t.pos ≤ s.re := hcursor ▸ (replayPass_cursor_le (st := (s.pos, s.out)) hpos).2
    have hcount := hpass.pass
    have hsteps : (s.re - t.pos + 1) * (cmds.length + 1) ≤ (s.re - s.pos) * (cmds.length + 1) :=
      Nat.mul_le_mul_right _ (by omega)
    rw [Nat.add_mul, Nat.one_mul] at hsteps
    rcases hpass.ended with ⟨hend, hdone⟩ | ⟨hmore, hnext⟩
    · exact ⟨k, t, by omega, hrun, hdone, by omega, by omega⟩
    · obtain ⟨k', t', hk', hrun', hdone, hpos', hcount'⟩ := PassStart.terminates hc hnext
      rw [hpass.re] at hk' hpos' hcount'
      exact ⟨k + k', t', by omega, by rw [runSteps_add, hrun, andThen_next, hrun'], hdone, hpos', by omega⟩
termination_by s.re - s.pos
decreasing_by rw [hpass.re]; omega

/-- Settles O53, by `PassStart.terminates`. -/
theorem programsThatConsumeTerminate : Obligations.ProgramsThatConsumeTerminate := by
  unfold Obligations.ProgramsThatConsumeTerminate
  exact fun s cmds hs hr ht hp hc => PassStart.terminates hc ⟨hs, hr, ht, hp⟩

/-! ### Runs without progress (R91, R142, 92 D17) -/

/-- A well-formed text without a count of at least 1. -/
def NoCount (text : Text) : Prop :=
  ∃ is, commandsOf text = .ok is ∧ ∀ i ∈ is, ∀ n, i.count? = some n → n = 0

theorem NoCount.decode_cases {text : Text} {p : Nat} (h : NoCount (text.drop p)) :
    decode text p = .endOfText ∨
      ∃ i q, decode text p = .command i q ∧ (∀ left, moved i left = 0) ∧ NoCount (text.drop q) := by
  obtain ⟨is, hc, h0⟩ := h
  rcases decode_of_commandsOf hc with ⟨-, hd⟩ | ⟨i, q, js, rfl, hd, hjs⟩
  · exact .inl hd
  · rw [List.forall_mem_cons] at h0
    exact .inr ⟨i, q, hd, moved_eq_zero h0.1, js, hjs, h0.2⟩

/-- A run with a bit left and the cursor at `p`, under a nonempty program without a count, at a position
between two of its commands. -/
structure Stuck (p : Nat) (s : State) : Prop where
  inv : UnitInv s
  run : inRun s
  cursor : s.pos = p
  bitLeft : p < s.re
  nonempty : s.prog ≠ []
  program : NoCount s.prog
  rest : NoCount (s.prog.drop s.tp)

theorem Stuck.step_next {p : Nat} {s : State} (h : Stuck p s) : ∃ t, step s = .next t ∧ Stuck p t := by
  obtain ⟨hs, hr, hpos, hp, hne, hprog, hrest⟩ := h
  have hx : ¬exhausted s = true := by simp [exhausted, hne, hpos, hp]
  rcases hrest.decode_cases with hd | ⟨i, q, hd, hm, hq⟩
  · have hstep := step_passEnd hr (fun h => hx h.2) (.inl hd)
    have hinv := everyStepKeepsTheInvariant _ _ hs hstep
    rw [endPass, if_neg hx] at hstep hinv
    exact ⟨_, hstep, hinv, hr, hpos, hp, hne, hprog, hprog⟩
  · have hstep := step_command hs hr (hpos ▸ hp) hd
    have hinv := everyStepKeepsTheInvariant _ _ hs hstep
    exact ⟨_, hstep, hinv, by simpa [inRun] using hr, by simpa [hm] using hpos, by simpa using hp, by simpa using hne,
      by simpa using hprog, by simpa using hq⟩

theorem Stuck.runSteps_next {p : Nat} {s : State} (h : Stuck p s) (k : Nat) :
    ∃ t, runSteps k s = .next t ∧ Stuck p t := by
  induction k generalizing s with
  | zero => exact ⟨s, rfl, h⟩
  | succ k ih =>
    obtain ⟨u, hu, hstuck⟩ := h.step_next
    obtain ⟨t, ht, hend⟩ := ih hstuck
    exact ⟨t, by rw [runSteps_succ, hu, andThen_next, ht], hend⟩

/-- Settles O54: every step of such a run leads to such a run with the same cursor. -/
theorem programsWithoutProgressNeverEnd : Obligations.ProgramsWithoutProgressNeverEnd := by
  unfold Obligations.ProgramsWithoutProgressNeverEnd
  intro s cmds hs hr ht hp hc hne h0 k
  have hprog : NoCount s.prog := ⟨cmds, hc, h0⟩
  have hempty : s.prog ≠ [] := fun h => hne (by simpa [h, commandsOf_eq_ok_nil.mpr] using hc.symm)
  obtain ⟨t, hrun, hstuck⟩ := Stuck.runSteps_next ⟨hs, hr, rfl, hp, hempty, hprog, by rw [ht]; exact hprog⟩ k
  exact ⟨t, hrun, hstuck.run.1, hstuck.cursor⟩

/-! ### Runs that differ in the input bits (R89) -/

/-- How many bits a command appends depends on the length of its chunk alone. -/
theorem appended_length (i : Instr) {c d : Bits} (h : c.length = d.length) :
    (appended i c).length = (appended i d).length := by
  cases i with
  | take _ | invert _ | reverseBits _ | byteSwap _ => simpa [appended] using h
  | logicXor _ _ | logicAnd _ _ | logicOr _ _ | block _ _ => simpa [appended] using h
  | skip _ | insert _ | chainInvert | chainReverseBits | chainByteSwap => rfl
  | chainXor _ | chainAnd _ | chainOr _ => rfl

/-- Whether a read is defined depends on the length of the input alone (R32). -/
theorem readFails_of_length {b : Bytes} {s : State} (hb : b.length = s.inb.length) (o : Bits) (ob : Bytes)
    (i : Instr) : readFails i { s with inb := b, out := o, outb := ob } = readFails i s := by
  have hlen : State.len { s with inb := b, out := o, outb := ob } = s.len := congrArg (8 * ·) hb
  simp only [readFails, memRead, hlen, apply_ite Option.isNone, Option.isNone_some, Option.isNone_none]

/-- `u` is `s` but for the input, which is `b` in `u` and as long as that of `s`, and for the values of the
output bits. -/
def SameControl (b : Bytes) (s u : State) : Prop :=
  s.hostIn = [] ∧ b.length = s.inb.length ∧
    ∃ o ob, u = { s with inb := b, out := o, outb := ob } ∧ o.length = s.out.length

theorem sameControl_simulation (b : Bytes) : RunSimulation (SameControl b) where
  noHost := by rintro s _ ⟨h0, -, o, ob, rfl, -⟩; exact ⟨h0, h0⟩
  control := by rintro s _ ⟨-, -, o, ob, rfl, -⟩; exact ⟨rfl, rfl, rfl, rfl, rfl⟩
  finish := by
    rintro s _ ⟨h0, hb, o, ob, rfl, ho⟩
    exact ⟨h0, hb, o, unpackFromBits o, by simp only [finishRun, ho], ho⟩
  raise := by rintro s _ k ⟨h0, hb, o, ob, rfl, ho⟩; exact ⟨h0, hb, [], [], rfl, rfl⟩
  countPass := by rintro s _ ⟨h0, hb, o, ob, rfl, ho⟩; exact ⟨h0, hb, o, ob, rfl, ho⟩
  setTp := by rintro s _ q ⟨h0, hb, o, ob, rfl, ho⟩; exact ⟨h0, hb, o, ob, rfl, ho⟩
  command := by
    rintro s _ t i ⟨h0, hb, o, ob, rfl, ho⟩ h
    rw [emitTrace_eq, exec_eq_next] at h
    obtain ⟨hread, rfl⟩ := h
    have hread' := (readFails_of_length (s := { s with trace := traceWith i s }) hb o ob i).trans hread
    have hchunk : (inputSlice { s with inb := b } s.pos (moved i (s.re - s.pos))).length =
        (inputSlice s s.pos (moved i (s.re - s.pos))).length := by
      simp [inputSlice, State.len, hb]
    rw [emitTrace_eq]
    exact ⟨_, exec_eq_next.mpr ⟨hread', rfl⟩, h0, hb, _, ob, rfl, by
      simp only [afterExec, List.length_append, ho]
      exact congrArg (s.out.length + ·) (appended_length i hchunk)⟩

/-- Settles O57: a command's control reads the length of the input alone, so the run with the other input
simulates the run. A run with a read outside the window has stopped: the invariant is not used. -/
theorem controlDoesNotDependOnData : Obligations.ControlDoesNotDependOnData := by
  unfold Obligations.ControlDoesNotDependOnData
  intro k s t b _ hr hlen h
  obtain ⟨u, hrun, -, -, o, ob, rfl, ho⟩ := (sameControl_simulation b).runSteps_related k
    (u := { s with inb := b }) ⟨hr.2, hlen, s.out, s.outb, rfl, rfl⟩ h
  exact ⟨_, hrun, rfl, rfl, rfl, rfl, rfl, rfl, ho, rfl⟩

end Sys2Proof.Machine

/-! PROOFS. The stream commands `t s i n` (43_stream_ops.md): the errors of format N and format I, and for
each command its encoding, its error and its effect. -/

namespace Sys2Proof

/-! ### The error of format N and of format I (30_encoding.md R54, R55) -/

/-- Format N raises InvalidArgument when no digit follows the command character. -/
theorem decodeN_of_no_digit {mk : Nat → Instr} {s : Text} (hs : ∀ c r, s = c :: r → isDigit c = false) :
    decodeN mk s = .error .invalidArgument := by
  have hrun : digitRun s = [] := digitRun_append (a := []) rfl hs
  rw [decodeN, if_pos hrun]

/-- Format I raises InvalidArgument when its argument run holds a character other than `0` and `1`. -/
theorem decodeInsert_of_not_bin {s : Text} (h : ∃ c ∈ argRun s, isBin c = false) :
    decodeInsert s = .error .invalidArgument := by
  obtain ⟨c, hc, hbin⟩ := h
  have hall : (argRun s).all isBin = false := List.all_eq_false.mpr ⟨c, hc, by simp [hbin]⟩
  simp [decodeInsert, hall]

end Sys2Proof

namespace Sys2Proof.Machine

/-- `INV` complements every bit in place (R100). -/
theorem inv_getElem? (w : Bits) (j : Nat) : (inv w)[j]? = w[j]?.map (fun b => !b) := List.getElem?_map

/-! ### Each stream command (R97 to R100) -/

/-- Settles O24: the operand is format N, and inside the window the clamped chunk is read and consumed. -/
theorem takeRule : Obligations.TakeRule := by
  unfold Obligations.TakeRule
  refine ⟨fun d rest h0 hd hr => ?_, fun s hs => ?_, fun n s hw => ?_⟩
  · exact decodeN_append (mk := .take) h0 hd hr
  · exact decodeN_of_no_digit (mk := .take) hs
  · exact consume_next hw _ n

/-- Settles O25: the operand is format N, and Skip is the clamped advance alone, which reads nothing. -/
theorem skipRule : Obligations.SkipRule := by
  unfold Obligations.SkipRule
  refine ⟨fun d rest h0 hd hr => ?_, fun s hs => ?_, fun n s => ?_⟩
  · exact decodeN_append (mk := .skip) h0 hd hr
  · exact decodeN_of_no_digit (mk := .skip) hs
  · rfl

/-- Settles O26: the operand is format I, and Insert is `outAppend` of the literal. -/
theorem insertRule : Obligations.InsertRule := by
  unfold Obligations.InsertRule
  refine ⟨fun lit rest hr => ?_, fun s hs => ?_, fun lit s => ?_⟩
  · rw [← encodeBits_length lit]
    exact decodeInsert_encodeBits hr lit
  · exact decodeInsert_of_not_bin hs
  · exact outAppend_eq lit s

/-- Settles O27: `INV` bit by bit; the operand is format N, and inside the window the clamped chunk is read
and its complement appended. -/
theorem invertRule : Obligations.InvertRule := by
  unfold Obligations.InvertRule
  refine ⟨fun w => ⟨inv_length w, fun j d hj => ?_⟩, fun d rest h0 hd hr => ?_, fun s hs => ?_,
    fun n s hw => ?_⟩
  · rw [inv_getElem?, hj]
    rfl
  · exact decodeN_append (mk := .invert) h0 hd hr
  · exact decodeN_of_no_digit (mk := .invert) hs
  · exact consume_next hw inv n

end Sys2Proof.Machine

/-! PROOFS. The reorder commands `v b` (44_reorder_ops.md): the bit at every index of `BREV` and `BSWAP`,
the errors of format N with a multiple of 8, and for each command its encoding, its errors and its effect. -/

namespace Sys2Proof

/-! ### Format N with a multiple of 8 (30_encoding.md R54, R104) -/

/-- The operand of `b` is format N and one test more, on the written count. -/
theorem decodeByteSwap_append {d rest : Text} (h0 : d ≠ []) (hd : d.all isDigit = true)
    (hr : ∀ c r, rest = c :: r → isDigit c = false) :
    decodeByteSwap (d ++ rest) =
      if decVal d % 8 ≠ 0 then .error .invalidArgument else .ok (.byteSwap (decVal d), d.length) := by
  rw [decodeByteSwap, digitRun_append hd hr, if_neg h0]

theorem decodeByteSwap_of_no_digit {s : Text} (hs : ∀ c r, s = c :: r → isDigit c = false) :
    decodeByteSwap s = .error .invalidArgument := by
  have hrun : digitRun s = [] := digitRun_append (a := []) rfl hs
  rw [decodeByteSwap, if_pos hrun]

end Sys2Proof

namespace Sys2Proof.Machine

/-! ### The bit at an index of the two units (R101, R103) -/

theorem brev_getElem? {w : Bits} {j : Nat} (hj : j < w.length) : (brev w)[j]? = w[w.length - 1 - j]? :=
  List.getElem?_reverse hj

theorem chunkByte_getElem? (w : Bits) (k : Nat) {j : Nat} (hj : j < 8) :
    (chunkByte w k)[j]? = w[8 * k + j]? := by
  rw [chunkByte, List.getElem?_take_of_lt hj, List.getElem?_drop]

/-- Whole bytes of a chunk one after another, in any order `ks`: bit `j` is bit `j mod 8` of the byte that
stands at place `j div 8` of the order. -/
theorem flatMap_chunkByte_getElem? {w : Bits} {ks : List Nat} (hks : ∀ k ∈ ks, k < w.length / 8)
    {j k : Nat} (hj : ks[j / 8]? = some k) : (ks.flatMap (chunkByte w))[j]? = w[8 * k + j % 8]? := by
  induction ks generalizing j with
  | nil => simp at hj
  | cons k₀ ks ih =>
    obtain ⟨hk₀, hks⟩ := List.forall_mem_cons.mp hks
    have hlen : (chunkByte w k₀).length = 8 := chunkByte_length hk₀
    rw [List.flatMap_cons]
    by_cases hlt : j < 8
    · rw [Nat.div_eq_of_lt hlt, List.getElem?_cons_zero, Option.some.injEq] at hj
      rw [List.getElem?_append_left (by omega), chunkByte_getElem? w k₀ hlt, hj, Nat.mod_eq_of_lt hlt]
    · rw [show j / 8 = (j - 8) / 8 + 1 by omega, List.getElem?_cons_succ] at hj
      rw [List.getElem?_append_right (by omega), hlen, ih hks hj, show (j - 8) % 8 = j % 8 by omega]

/-- The reversed whole bytes of `BSWAP` are as long as the whole bytes of the chunk. -/
theorem swappedBytes_length (w : Bits) :
    ((List.range (w.length / 8)).reverse.flatMap (chunkByte w)).length = 8 * (w.length / 8) := by
  rw [flatMap_chunkByte_length w _ (by simp), List.length_reverse, List.length_range]

/-- In the whole bytes, the byte at place `k` of `BSWAP` is byte `q - 1 - k` of the chunk, its bits in order. -/
theorem bswap_getElem?_wholeBytes {w : Bits} {j : Nat} (hj : j < 8 * (w.length / 8)) :
    (bswap w)[j]? = w[8 * (w.length / 8 - 1 - j / 8) + j % 8]? := by
  have hplace : (List.range (w.length / 8)).reverse[j / 8]? = some (w.length / 8 - 1 - j / 8) := by
    rw [List.getElem?_reverse (by simp; omega), List.length_range, List.getElem?_range (by omega)]
  rw [bswap, List.getElem?_append_left (by rwa [swappedBytes_length]),
    flatMap_chunkByte_getElem? (by simp) hplace]

/-- The trailing partial byte of `BSWAP` is the chunk's own, in its place. -/
theorem bswap_getElem?_partialByte {w : Bits} {j : Nat} (hj : 8 * (w.length / 8) ≤ j) :
    (bswap w)[j]? = w[j]? := by
  rw [bswap, List.getElem?_append_right (by rwa [swappedBytes_length]), swappedBytes_length,
    List.getElem?_drop, Nat.add_sub_cancel' hj]

/-- Settles O20: `BREV` is the reversed list. -/
theorem bitReversalFormula : Obligations.BitReversalFormula := fun w =>
  ⟨brev_length w, fun _ => brev_getElem?⟩

/-- Settles O21: the two index ranges are the two parts that `BSWAP` joins. -/
theorem byteSwapFormula : Obligations.ByteSwapFormula := fun w =>
  ⟨bswap_length w, fun _ => bswap_getElem?_wholeBytes, fun _ hj _ => bswap_getElem?_partialByte hj⟩

/-! ### Each reorder command (R102, R104) -/

/-- Settles O28: the operand is format N, and inside the window the clamped chunk is read and its reversal
appended. -/
theorem reverseBitsRule : Obligations.ReverseBitsRule := by
  unfold Obligations.ReverseBitsRule
  refine ⟨fun d rest h0 hd hr => ?_, fun s hs => ?_, fun n s hw => ?_⟩
  · exact decodeN_append (mk := .reverseBits) h0 hd hr
  · exact decodeN_of_no_digit (mk := .reverseBits) hs
  · exact consume_next hw brev n

/-- Settles O29: the written count decides between the command and InvalidArgument, and inside the window
the clamped chunk is read and its byte swap appended, whatever the clamped count is. -/
theorem byteSwapRule : Obligations.ByteSwapRule := by
  unfold Obligations.ByteSwapRule
  refine ⟨fun d rest h0 hd hr => ⟨fun hn => ?_, fun hn => ?_⟩, fun s hs => ?_, fun n s hw => ?_⟩
  · exact (decodeByteSwap_append h0 hd hr).trans (if_neg (not_not_intro hn))
  · exact (decodeByteSwap_append h0 hd hr).trans (if_pos hn)
  · exact decodeByteSwap_of_no_digit hs
  · exact consume_next hw bswap n

end Sys2Proof.Machine

/-! PROOFS. The logical commands `x a o` (45_logical_ops.md): the bit at every index of `MASK`, and for the
three commands their encoding and their effect. -/

namespace Sys2Proof.Machine

/-! ### The pattern store and `MASK` at an index (41_pattern.md R78, R106) -/

theorem pattern_bits_length_pos (P : Pattern) : 1 ≤ P.bits.length := Nat.succ_pos P.rest.length

/-- `bit_at` is defined at every index: the index taken mod `L` lies inside the pattern (R78). -/
theorem bits_getElem?_mod (P : Pattern) (j : Nat) : P.bits[j % P.bits.length]? = some (bitAt P j) := by
  have hlt : j % P.bits.length < P.bits.length := Nat.mod_lt j (pattern_bits_length_pos P)
  rw [bitAt, List.getD_eq_getElem _ _ hlt, List.getElem?_eq_getElem hlt]

/-- `MASK` combines the bits of the chunk in place, each with the pattern bit at its own index. -/
theorem mask_getElem? (op : LogicOp) (w : Bits) (P : Pattern) (j : Nat) :
    (mask op w P)[j]? = w[j]?.map (fun d => bitOp op d (bitAt P j)) := by
  rw [mask, List.getElem?_map, List.getElem?_zipIdx, Option.map_map, Nat.zero_add]
  rfl

/-- Settles O22: the pattern bit is `bit_at`, and each operation's truth table is `bitOp`'s. -/
theorem maskFormula : Obligations.MaskFormula := by
  unfold Obligations.MaskFormula
  refine fun w P => ⟨fun op => mask_length op w P, pattern_bits_length_pos P, fun j d hj => ?_⟩
  have hbit (op : LogicOp) : (mask op w P)[j]? = some (bitOp op d (bitAt P j)) := by
    rw [mask_getElem?, hj, Option.map_some]
  exact ⟨bitAt P j, bits_getElem?_mod P j, rfl, hbit .xor, hbit .and, hbit .or⟩

/-! ### The three logical commands (R107 to R109) -/

/-- Settles O30: the operand of each command is format L, and inside the window the clamped chunk is read
and its mask appended. -/
theorem logicalRules : Obligations.LogicalRules := by
  unfold Obligations.LogicalRules
  refine ⟨fun d rest P h0 hd hr => ⟨?_, ?_, ?_⟩, fun n P s hw => ⟨?_, ?_, ?_⟩⟩
  · exact decodeL_append (mk := .logicXor) P h0 hd hr
  · exact decodeL_append (mk := .logicAnd) P h0 hd hr
  · exact decodeL_append (mk := .logicOr) P h0 hd hr
  · exact consume_next hw (fun c => mask .xor c P) n
  · exact consume_next hw (fun c => mask .and c P) n
  · exact consume_next hw (fun c => mask .or c P) n

end Sys2Proof.Machine

/-! PROOFS. The block and its chain (46_block.md): what the scan of a chain does after a good chain (R61),
where a block's first `]` stands (R57), the algebra of the units behind the order of a chain (R120), and for
`[` and the six chain commands their encoding and their effect. -/

namespace Sys2Proof

/-! ### The scan of a chain after a good chain (30_encoding.md R61, R112, R132) -/

/-- The operand of a chain command ends before `rest`: only a logical command has one to end (R58, R59). -/
theorem decodeChainCmd_encode_append {rest : Text} {k : ChainCmd}
    (h : EndsOperand rest ∨ ∀ op p, k ≠ .logical op p) :
    decodeChainCmd (opcodeChar k.toInstr) (operand k.toInstr ++ rest) =
      .ok (k, (operand k.toInstr).length) := by
  obtain hr | hk := h
  · exact decodeChainCmd_encode hr k
  · cases k with
    | logical op p => exact absurd rfl (hk op p)
    | _ => rfl

theorem encodeChain_cons (k : ChainCmd) (ks : List ChainCmd) :
    encodeChain (k :: ks) = opcodeChar k.toInstr :: (operand k.toInstr ++ encodeChain ks) := by
  rw [← List.cons_append, ← encode_eq, encode_toInstr]
  rfl

/-- A good chain before `rest` decodes to its commands and leaves `rest` to the scan, if `rest` does not
lengthen the operand of its last command. -/
theorem decodeChain_encodeChain_append {rest : Text} {chain : List ChainCmd}
    (h : EndsOperand rest ∨ ∀ op p, chain.getLast? ≠ some (.logical op p)) :
    decodeChain (encodeChain chain ++ rest) = (decodeChain rest).map (fun cmds => chain ++ cmds) := by
  induction chain with
  | nil => exact (congrFun Except.map_id (decodeChain rest)).symm
  | cons k ks ih =>
    have hfirst : EndsOperand (encodeChain ks ++ rest) ∨ ∀ op p, k ≠ .logical op p := by
      cases ks with
      | nil => exact h.imp_right fun hk op p e => hk op p (congrArg some e)
      | cons k' ks =>
        refine .inl fun c r e => ?_
        rw [encodeChain_cons, List.cons_append, List.cons.injEq] at e
        exact e.1 ▸ isCmdStart_opcodeChar _
    have hlater : EndsOperand rest ∨ ∀ op p, ks.getLast? ≠ some (.logical op p) := by
      cases ks with
      | nil => exact .inr nofun
      | cons k' ks => rwa [List.getLast?_cons_cons] at h
    rw [encodeChain_cons, List.cons_append, List.append_assoc,
      decodeChain_cons_ok (decodeChainCmd_encode_append hfirst), List.drop_left, ih hlater]
    cases decodeChain rest <;> rfl

theorem decodeChain_cons_error {c : Byte} {s : Text} {k : ErrorKind} (h : decodeChainCmd c s = .error k) :
    decodeChain (c :: s) = .error k := by
  simp [decodeChain, decodeChainFrom, h]

/-- With a `]` in the text and a count after the first one, a block raises its chain's error and no other
(R57, 92 D6). -/
theorem decodeBlock_eq_error {s : Text} {k : ErrorKind} (hclose : s.contains chClose = true)
    (hcount : digitRun (afterClose s) ≠ []) :
    decodeBlock s = .error k ↔ decodeChain (chainText s) = .error k := by
  rw [decodeBlock, if_neg (by rw [hclose]; decide), if_neg hcount]
  cases decodeChain (chainText s) <;> simp

/-- Settles O15: the scan passes over the good chain and then meets the error; a block asks for its bracket
and its count first. -/
theorem firstChainErrorWins : Obligations.FirstChainErrorWins := by
  unfold Obligations.FirstChainErrorWins
  refine ⟨fun chain c s k hend herr => ?_, fun s k => decodeBlock_eq_error⟩
  have hends : EndsOperand (c :: s) ∨ ∀ op p, chain.getLast? ≠ some (.logical op p) :=
    hend.imp_left fun hc d r e => (List.cons.inj e).1 ▸ hc
  rw [decodeChain_encodeChain_append hends, decodeChain_cons_error herr]
  rfl

/-! ### A block's text (R57) -/

/-- The first `]` after `[` and a chain's text is the one that closes the block, so the chain's text and
what follows the `]` are read apart. -/
theorem chainText_afterClose_encodeChain (chain : List ChainCmd) (t : Text) :
    chainText (encodeChain chain ++ chClose :: t) = encodeChain chain ∧
      afterClose (encodeChain chain ++ chClose :: t) = t := by
  have hin : ∀ c ∈ encodeChain chain, (c != chClose) = true := fun c hc =>
    bne_iff_ne.mpr (ne_close_of_mem_encodeChain hc)
  have hend : ∀ c r, chClose :: t = c :: r → (c != chClose) = false := fun c r e =>
    (List.cons.inj e).1 ▸ bne_self_eq_false chClose
  refine ⟨takeWhile_run hin hend, ?_⟩
  rw [afterClose, dropWhile_run hin hend]
  rfl

/-- Format B reads a chain's text, `]` and a digit run as the block, leading zeros and all (R52, R57). -/
theorem decodeBlock_append {d rest : Text} (chain : List ChainCmd) (h0 : d ≠ []) (hd : d.all isDigit = true)
    (hr : ∀ c r, rest = c :: r → isDigit c = false) :
    decodeBlock (encodeChain chain ++ chClose :: d ++ rest) =
      .ok (.block chain (decVal d), (encodeChain chain).length + 1 + d.length) := by
  obtain ⟨hchain, hafter⟩ := chainText_afterClose_encodeChain chain (d ++ rest)
  rw [List.append_assoc, List.cons_append]
  simp [decodeBlock, hchain, hafter, digitRun_append hd hr, h0, decodeChain_encodeChain]

end Sys2Proof

namespace Sys2Proof.Machine

/-! ### Effects (R111 to R118) -/

/-- Settles O31: the operand is format B, and inside the window the block answers `afterExec`. -/
theorem blockRule : Obligations.BlockRule := by
  unfold Obligations.BlockRule
  refine ⟨fun chain d rest h0 hd hr => ?_, fun chain n s hw => ?_⟩
  · exact decodeBlock_append chain h0 hd hr
  · exact exec_of_windowOk hw (.block chain n)

/-- Settles O32: running the chain is the fold, and a chain row's meaning is its chain command's. -/
theorem chainAppliesInTextOrder : Obligations.ChainAppliesInTextOrder := by
  unfold Obligations.ChainAppliesInTextOrder
  refine ⟨fun chain s => ⟨runChain_eq chain s, applyChain_length chain s.work⟩, applyChain_cons, fun w => ?_,
    exec_toInstr⟩
  exact ⟨rfl, rfl, rfl, rfl, fun op P => rfl⟩

/-- Settles O33: `n v b` are complete at their character, `x a o` have format CL, and each row applies its
chain command's unit to W. -/
theorem chainCommandRules : Obligations.ChainCommandRules := by
  unfold Obligations.ChainCommandRules
  refine ⟨fun s => ⟨rfl, rfl, rfl⟩, fun P rest hr => ⟨?_, ?_, ?_⟩, fun s => ⟨?_, ?_, ?_, fun P => ⟨?_, ?_, ?_⟩⟩⟩
  · exact decodeCL_append (op := .xor) P hr
  · exact decodeCL_append (op := .and) P hr
  · exact decodeCL_append (op := .or) P hr
  · exact exec_chain .invert s
  · exact exec_chain .reverseBits s
  · exact exec_chain .byteSwap s
  · exact exec_chain (.logical .xor P) s
  · exact exec_chain (.logical .and P) s
  · exact exec_chain (.logical .or P) s

/-! ### `BSWAP` as a permutation of the indices (R103) -/

/-- Where `BSWAP` on `n` bits takes the bit at index `j` from. -/
def swapIndex (n j : Nat) : Nat := if j < 8 * (n / 8) then 8 * (n / 8 - 1 - j / 8) + j % 8 else j

theorem bswap_getElem? (w : Bits) (j : Nat) : (bswap w)[j]? = w[swapIndex w.length j]? := by
  rw [swapIndex]
  split
  next hj => exact bswap_getElem?_wholeBytes hj
  next hj => exact bswap_getElem?_partialByte (Nat.le_of_not_lt hj)

theorem swapIndex_swapIndex (n j : Nat) : swapIndex n (swapIndex n j) = j := by
  unfold swapIndex
  split
  next hj => rw [if_pos (by omega)]; omega
  next => rfl

/-- With less than two whole bytes there is nothing to swap. -/
theorem swapIndex_of_lt {n : Nat} (hn : n < 16) (j : Nat) : swapIndex n j = j := by
  unfold swapIndex
  split <;> omega

theorem swapIndex_lt {n j : Nat} (hj : j < n) : swapIndex n j < n := by
  unfold swapIndex
  split <;> omega

/-- On whole bytes the index swap and the mirror image commute. -/
theorem swapIndex_mirror {n j : Nat} (hn : n % 8 = 0) (hj : j < n) :
    swapIndex n (n - 1 - j) = n - 1 - swapIndex n j := by
  rw [swapIndex, swapIndex, if_pos (by omega), if_pos (by omega)]
  omega

/-! ### Algebra of the units (R100, R101, R103, R106) -/

section Units

variable (w : Bits) (P Q : Pattern)

theorem inv_inv : inv (inv w) = w := List.ext_getElem? fun j => by
  simp [inv_getElem?, Function.comp_def]

theorem brev_brev : brev (brev w) = w := List.reverse_reverse w

theorem brev_append (d : Bits) : brev (w ++ d) = brev d ++ brev w := List.reverse_append

theorem bswap_bswap : bswap (bswap w) = w := List.ext_getElem? fun j => by
  rw [bswap_getElem?, bswap_getElem?, bswap_length, swapIndex_swapIndex]

theorem bswap_of_length_lt {w : Bits} (hw : w.length < 16) : bswap w = w := List.ext_getElem? fun j => by
  rw [bswap_getElem?, swapIndex_of_lt hw]

/-- Two masks one after another, at an index. -/
theorem mask_mask_getElem? (op op' : LogicOp) (j : Nat) :
    (mask op (mask op' w Q) P)[j]? =
      w[j]?.map (fun d => bitOp op (bitOp op' d (bitAt Q j)) (bitAt P j)) := by
  rw [mask_getElem?, mask_getElem?, Option.map_map]
  rfl

theorem mask_xor_involutive : mask .xor (mask .xor w P) P = w := List.ext_getElem? fun j => by
  simp [mask_mask_getElem?, bitOp]

/-- `AND` and `OR` by one pattern do nothing the second time, because they are idempotent on a bit. -/
theorem mask_idempotent {op : LogicOp} (hop : ∀ d p, bitOp op (bitOp op d p) p = bitOp op d p) :
    mask op (mask op w P) P = mask op w P := List.ext_getElem? fun j => by
  rw [mask_mask_getElem?, mask_getElem?]
  simp only [hop]

/-! ### The pairs of a chain that commute (R120) -/

theorem brev_inv : brev (inv w) = inv (brev w) := List.map_reverse.symm

theorem bswap_inv : bswap (inv w) = inv (bswap w) := List.ext_getElem? fun j => by
  rw [bswap_getElem?, inv_getElem?, inv_getElem?, bswap_getElem?, inv_length]

theorem brev_bswap {w : Bits} (hw : w.length % 8 = 0) : brev (bswap w) = bswap (brev w) :=
  List.ext_getElem? fun j => by
    by_cases hj : j < w.length
    · rw [brev_getElem? (by simpa using hj), bswap_length, bswap_getElem?, bswap_getElem?, brev_length,
        brev_getElem? (swapIndex_lt hj), swapIndex_mirror hw hj]
    · rw [List.getElem?_eq_none (by simpa using hj), List.getElem?_eq_none (by simpa using hj)]

theorem inv_mask_xor : inv (mask .xor w P) = mask .xor (inv w) P := List.ext_getElem? fun j => by
  simp [inv_getElem?, mask_getElem?, bitOp, Function.comp_def]

theorem mask_xor_comm : mask .xor (mask .xor w P) Q = mask .xor (mask .xor w Q) P :=
  List.ext_getElem? fun j => by
    simp only [mask_mask_getElem?, bitOp, Bool.xor_right_comm]

end Units

/-! ### The pairs of a chain that do not commute (R120) -/

/-- A chunk of `n` bits on which a mask leaves the pattern's own bits. -/
def neutralBits (op : LogicOp) (n : Nat) : Bits := List.replicate n (op == .and)

/-- A mask by the pattern `10` marks the first bit of the neutral chunk, which `BREV` moves if it comes
after. -/
theorem brev_mask_ne (op : LogicOp) : brev (mask op (neutralBits op 2) ⟨true, [false]⟩) ≠
    mask op (brev (neutralBits op 2)) ⟨true, [false]⟩ := by
  cases op <;> decide

/-- The same with a pattern as long as the two bytes that `BSWAP` swaps. -/
theorem bswap_mask_ne (op : LogicOp) :
    bswap (mask op (neutralBits op 16) ⟨true, List.replicate 15 false⟩) ≠
      mask op (bswap (neutralBits op 16)) ⟨true, List.replicate 15 false⟩ := by
  cases op <;> decide

/-- Settles O23: the algebra and the commuting pairs hold at every index; each other pair has its chunk. -/
theorem unitAlgebraAndChainOrder : Obligations.UnitAlgebraAndChainOrder := by
  unfold Obligations.UnitAlgebraAndChainOrder
  refine ⟨?algebra, ?commute, ?_, ?_, ?_, fun op => ?_, ?_⟩
  case algebra =>
    exact ⟨inv_inv, brev_brev, bswap_bswap, fun w => bswap_of_length_lt, brev_append, mask_xor_involutive,
      fun w P => mask_idempotent w P (by decide), fun w P => mask_idempotent w P (by decide)⟩
  case commute =>
    exact ⟨brev_inv, bswap_inv, fun w => brev_bswap, inv_mask_xor, mask_xor_comm⟩
  · exact ⟨[false], ⟨false, []⟩, by decide⟩
  · exact ⟨[true], ⟨true, []⟩, by decide⟩
  · exact ⟨true :: List.replicate 16 false, by decide⟩
  · exact ⟨⟨_, _, brev_mask_ne op⟩, _, _, bswap_mask_ne op⟩
  · exact ⟨[false], ⟨false, []⟩, ⟨true, []⟩, by decide⟩

end Sys2Proof.Machine

/-! PROOFS. The errors (60_exceptions.md): at which characters each error kind of the decoder is raised, what a
step of a run that raises an error does, the trace of a step, and that a run never stops. -/

namespace Sys2Proof

/-! ### The errors of each operand format (30_encoding.md R54 to R57) -/

section Formats

variable {s : Text} {k : ErrorKind}

theorem decodeN_eq_error {mk : Nat → Instr} :
    decodeN mk s = .error k ↔ digitRun s = [] ∧ k = .invalidArgument := by
  rw [decodeN]
  split
  next hnone => simp [hnone, eq_comm (a := k)]
  next hsome => simp [hsome]

theorem decodeByteSwap_eq_error :
    decodeByteSwap s = .error k ↔
      (digitRun s = [] ∨ decVal (digitRun s) % 8 ≠ 0) ∧ k = .invalidArgument := by
  rw [decodeByteSwap]
  split
  next hnone => simp [hnone, eq_comm (a := k)]
  next hsome =>
    split
    next hrest => simp [hrest, eq_comm (a := k)]
    next hrest => simp [hsome, not_not.mp hrest]

theorem decodeInsert_eq_error :
    decodeInsert s = .error k ↔ (∃ c ∈ argRun s, isBin c = false) ∧ k = .invalidArgument := by
  have hall : (∃ c ∈ argRun s, isBin c = false) ↔ ¬ (argRun s).all isBin = true := by simp
  rw [decodeInsert, hall]
  split
  next hbin => simp [hbin]
  next hbin => simp [hbin, eq_comm (a := k)]

/-- The errors of a block in the order of its checks (R57, 92 D6). -/
theorem decodeBlock_eq_error_cases :
    decodeBlock s = .error k ↔
      (s.contains chClose = false ∧ k = .mismatchedBrackets) ∨
      (s.contains chClose = true ∧ digitRun (afterClose s) = [] ∧ k = .missingBlockCount) ∨
      (s.contains chClose = true ∧ digitRun (afterClose s) ≠ [] ∧ decodeChain (chainText s) = .error k) := by
  by_cases hclose : chClose ∈ s
  · have hcontains : s.contains chClose = true := List.contains_iff_mem.mpr hclose
    by_cases hcount : digitRun (afterClose s) = []
    · simp [decodeBlock, hclose, hcount, eq_comm (a := k)]
    · rw [decodeBlock_eq_error hcontains hcount]
      simp [hclose, hcount]
  · simp [decodeBlock, hclose, eq_comm (a := k)]

end Formats

/-! ### The errors at a command position (30_encoding.md R60 to R63) -/

section Positions

variable {c : Byte} {s : Text} {k : ErrorKind}

/-- The ten command-start characters, by the format of their operand (R62). -/
theorem isCmdStart_cases (h : isCmdStart c = true) :
    (c = chT ∨ c = chS ∨ c = chN ∨ c = chV) ∨ c = chB ∨ c = chI ∨ (c = chX ∨ c = chA ∨ c = chO) ∨ c = chOpen := by
  simp only [isCmdStart, Bool.or_eq_true, beq_iff_eq] at h
  tauto

theorem decodeCmd_of_not_isCmdStart (h : isCmdStart c = false) :
    decodeCmd c s = .error .unknownCommand := by
  simp only [isCmdStart, Bool.or_eq_false_iff, beq_eq_false_iff_ne] at h
  simp [decodeCmd, h]

theorem decodeCmd_count (hc : c = chT ∨ c = chS ∨ c = chN ∨ c = chV) :
    ∃ mk, decodeCmd c s = decodeN mk s := by
  rcases hc with rfl | rfl | rfl | rfl
  · exact ⟨.take, rfl⟩
  · exact ⟨.skip, rfl⟩
  · exact ⟨.invert, rfl⟩
  · exact ⟨.reverseBits, rfl⟩

/-- What is wrong with an operand that is no block's is InvalidArgument or InvalidPattern (R124, R125). -/
theorem decodeCmd_operand_error (hc : isCmdStart c = true) (hopen : c ≠ chOpen)
    (h : decodeCmd c s = .error k) : k = .invalidArgument ∨ k = .invalidPattern := by
  rcases isCmdStart_cases hc with hN | rfl | rfl | hL | rfl
  · obtain ⟨mk, hmk⟩ := decodeCmd_count (s := s) hN
    exact .inl (decodeN_eq_error.mp (hmk ▸ h)).2
  · exact .inl (decodeByteSwap_eq_error.mp h).2
  · exact .inl (decodeInsert_eq_error.mp h).2
  · obtain ⟨mk, hmk⟩ := decodeCmd_logical (s := s) hL
    rcases decodeL_eq_error.mp (hmk ▸ h) with ⟨-, hpattern⟩ | ⟨-, hk⟩
    · exact .inr (makePattern_eq_error.mp hpattern).1
    · exact .inl hk
  · exact absurd rfl hopen

/-- The kinds that no operand raises come from a character that starts no command, or from a block. -/
theorem decodeCmd_eq_error (hA : k ≠ .invalidArgument) (hP : k ≠ .invalidPattern) :
    decodeCmd c s = .error k ↔
      (isCmdStart c = false ∧ k = .unknownCommand) ∨ (c = chOpen ∧ decodeBlock s = .error k) := by
  by_cases hopen : c = chOpen
  · subst hopen
    have hstart : isCmdStart chOpen = true := rfl
    have hblock : decodeCmd chOpen s = decodeBlock s := rfl
    simp [hstart, hblock]
  · cases hc : isCmdStart c with
    | false => simp [decodeCmd_of_not_isCmdStart hc, hopen, eq_comm (a := k)]
    | true =>
      have hno : decodeCmd c s ≠ .error k := fun h => (decodeCmd_operand_error hc hopen h).elim hA hP
      simp [hno, hopen]

/-! ### The errors at a chain command position (30_encoding.md R61) -/

theorem decodeChainCmd_of_forbidden (hc : c = chT ∨ c = chS ∨ c = chI) :
    decodeChainCmd c s = .error .disallowedInBlock := by
  rcases hc with rfl | rfl | rfl
  · rfl
  · rfl
  · rfl

theorem decodeChainCmd_of_unknown (hc : c ∉ [chN, chV, chB, chX, chA, chO, chT, chS, chI]) :
    decodeChainCmd c s = .error .unknownCommand := by
  simp only [List.mem_cons, List.not_mem_nil, or_false, not_or] at hc
  simp [decodeChainCmd, hc]

theorem decodeCL_error_kind {op : LogicOp} (h : decodeCL op s = .error k) :
    k = .invalidArgument ∨ k = .invalidPattern := by
  rcases decodeCL_eq_error.mp h with ⟨-, hpattern⟩ | ⟨-, hk⟩
  · exact .inr (makePattern_eq_error.mp hpattern).1
  · exact .inl hk

/-- The errors at a chain command position: the operand of `x a o`, a character a chain may not hold, and a
character outside the nine. -/
theorem decodeChainCmd_error_cases (h : decodeChainCmd c s = .error k) :
    (c ∈ [chX, chA, chO] ∧ (k = .invalidArgument ∨ k = .invalidPattern)) ∨
    ((c = chT ∨ c = chS ∨ c = chI) ∧ k = .disallowedInBlock) ∨
    (c ∉ [chN, chV, chB, chX, chA, chO, chT, chS, chI] ∧ k = .unknownCommand) := by
  by_cases hlogic : c ∈ [chX, chA, chO]
  · obtain ⟨op, hop⟩ := decodeChainCmd_logical (s := s) (by simpa using hlogic)
    exact .inl ⟨hlogic, decodeCL_error_kind (hop ▸ h)⟩
  by_cases hforbidden : c = chT ∨ c = chS ∨ c = chI
  · rw [decodeChainCmd_of_forbidden hforbidden, Except.error.injEq] at h
    exact .inr (.inl ⟨hforbidden, h.symm⟩)
  by_cases hbare : c = chN ∨ c = chV ∨ c = chB
  · rcases hbare with rfl | rfl | rfl
    · cases h
    · cases h
    · cases h
  · have hnine : c ∉ [chN, chV, chB, chX, chA, chO, chT, chS, chI] := by
      simp only [List.mem_cons, List.not_mem_nil, or_false] at hlogic ⊢
      tauto
    rw [decodeChainCmd_of_unknown hnine, Except.error.injEq] at h
    exact .inr (.inr ⟨hnine, h.symm⟩)

/-- A chain's error is the error at one of its command positions. -/
theorem exists_decodeChainCmd_error {n : Nat} (h : decodeChainFrom n s = .error k) :
    ∃ c r, decodeChainCmd c r = .error k := by
  induction s generalizing n with
  | nil => cases n <;> cases h
  | cons c r ih =>
    cases n with
    | succ n => exact ih h
    | zero =>
      simp only [decodeChainFrom] at h
      split at h
      next e hc => exact ⟨c, r, hc.trans (congrArg _ (Except.error.inj h))⟩
      next cmd used hc =>
        split at h
        next e hrest => exact ih (hrest.trans h)
        next => cases h

/-- A chain raises neither the errors of a block's own text nor RangeError (R132). -/
theorem decodeChain_error_kind (h : decodeChain s = .error k) :
    k ≠ .mismatchedBrackets ∧ k ≠ .missingBlockCount ∧ k ≠ .rangeError := by
  obtain ⟨c, r, hc⟩ := exists_decodeChainCmd_error h
  rcases decodeChainCmd_error_cases hc with ⟨-, rfl | rfl⟩ | ⟨-, rfl⟩ | ⟨-, rfl⟩ <;> decide

end Positions

/-! ### UnknownCommand, DisallowedInBlock and InvalidArgument (R124, R128, R129) -/

/-- Settles O9: no operand raises it, so it comes from the character or, through the block, from a chain. -/
theorem unknownCommandExactly : Obligations.UnknownCommandExactly := by
  refine ⟨fun c s => decodeCmd_of_not_isCmdStart, fun c s => ?_, fun c s => ⟨fun h => ?_, ?_⟩⟩
  · simp [decodeCmd_eq_error, decodeBlock_eq_error_cases]
  · rcases decodeChainCmd_error_cases h with ⟨-, hk | hk⟩ | ⟨-, hk⟩ | ⟨hc, -⟩
    · cases hk
    · cases hk
    · cases hk
    · exact hc
  · exact decodeChainCmd_of_unknown

/-- Settles O10: the three characters raise it, and a good chain before one is passed over. -/
theorem disallowedInBlockExactly : Obligations.DisallowedInBlockExactly := by
  refine ⟨fun c s => ⟨fun h => ?_, decodeChainCmd_of_forbidden⟩, fun chain c s hc => ?_⟩
  · rcases decodeChainCmd_error_cases h with ⟨-, hk | hk⟩ | ⟨hc, -⟩ | ⟨-, hk⟩
    · cases hk
    · cases hk
    · exact hc
    · cases hk
  · have hstart : isCmdStart c = true := by rcases hc with rfl | rfl | rfl <;> rfl
    exact firstChainErrorWins.1 chain c s _ (.inl hstart) (decodeChainCmd_of_forbidden hc)

/-- Settles O13: each format's own condition, and the characters that have no operand to be wrong. -/
theorem invalidArgumentExactly : Obligations.InvalidArgumentExactly := by
  refine ⟨fun c s hc => ?_, fun s => ?_, fun s => ?_, fun c s hc => ?_, fun c s hc => ?_, fun s => ?_,
    fun c s hc h => ?_, fun c s hc h => ?_⟩
  · obtain ⟨mk, hmk⟩ := decodeCmd_count (s := s) hc
    rw [hmk, decodeN_eq_error, digitRun_eq_nil, and_iff_left rfl]
  · rw [← digitRun_eq_nil]
    exact decodeByteSwap_eq_error.trans (and_iff_left rfl)
  · exact decodeInsert_eq_error.trans (and_iff_left rfl)
  · obtain ⟨mk, hmk⟩ := decodeCmd_logical (s := s) hc
    rw [hmk, decodeL_eq_error, makePattern_eq_error]
    simp [CountThenColon, imp_iff_not_or]
  · obtain ⟨op, hop⟩ := decodeChainCmd_logical (s := s) hc
    rw [hop, decodeCL_eq_error, makePattern_eq_error]
    simp [OnlyColon, imp_iff_not_or]
  · exact decodeBlock_eq_error_cases.trans (by simp)
  · rw [decodeCmd_of_not_isCmdStart hc] at h
    cases h
  · rcases decodeChainCmd_error_cases h with ⟨hlogic, -⟩ | ⟨-, hk⟩ | ⟨-, hk⟩
    · exact hc hlogic
    · cases hk
    · cases hk

/-! ### Where a block's first `]` stands (30_encoding.md R57) -/

section Brackets

variable {text : Text} {p k : Nat} {c : Byte}

theorem drop_eq_cons_iff {r : Text} : text.drop p = c :: r ↔ text[p]? = some c ∧ text.drop (p + 1) = r := by
  rw [← List.head?_drop, ← List.tail_drop]
  cases text.drop p <;> simp

theorem decode_eq_bad_iff_at {e : ErrorKind} :
    decode text p = .bad e ↔ ∃ c, text[p]? = some c ∧ decodeCmd c (text.drop (p + 1)) = .error e := by
  simp only [decode_eq_bad, drop_eq_cons_iff]
  constructor
  · rintro ⟨c, r, ⟨hc, rfl⟩, h⟩
    exact ⟨c, hc, h⟩
  · rintro ⟨c, hc, h⟩
    exact ⟨c, _, ⟨hc, rfl⟩, h⟩

/-- The first `]` after `p` stands at `k`. -/
def FirstClose (text : Text) (p k : Nat) : Prop :=
  p < k ∧ text[k]? = some chClose ∧ ∀ j, p < j → j < k → text[j]? ≠ some chClose

theorem contains_close_iff :
    (text.drop (p + 1)).contains chClose = true ↔ ∃ k, p < k ∧ text[k]? = some chClose := by
  simp only [List.contains_iff_mem, List.mem_iff_getElem?, List.getElem?_drop]
  constructor
  · rintro ⟨j, hj⟩
    exact ⟨p + 1 + j, by omega, hj⟩
  · rintro ⟨k, hpk, hk⟩
    exact ⟨k - (p + 1), by rwa [Nat.add_sub_cancel' hpk]⟩

theorem contains_close_iff_firstClose :
    (text.drop (p + 1)).contains chClose = true ↔ ∃ k, FirstClose text p k := by
  rw [contains_close_iff]
  constructor
  · intro h
    obtain ⟨hpk, hk⟩ := Nat.find_spec h
    exact ⟨Nat.find h, hpk, hk, fun j hpj hjk hj => Nat.find_min h hjk ⟨hpj, hj⟩⟩
  · rintro ⟨k, hpk, hk, -⟩
    exact ⟨k, hpk, hk⟩

/-- What follows the first `]`, in the text that a block at `p` is read from. -/
theorem FirstClose.afterClose_eq (h : FirstClose text p k) : afterClose (text.drop (p + 1)) = text.drop (k + 1) := by
  obtain ⟨hpk, hk, hmin⟩ := h
  have hsplit : text.drop (p + 1) = (text.drop (p + 1)).take (k - (p + 1)) ++ chClose :: text.drop (k + 1) := by
    have hrest : (text.drop (p + 1)).drop (k - (p + 1)) = chClose :: text.drop (k + 1) := by
      rw [List.drop_drop, Nat.add_sub_cancel' hpk]
      exact drop_eq_cons_iff.mpr ⟨hk, rfl⟩
    rw [← hrest, List.take_append_drop]
  have hin : ∀ c ∈ (text.drop (p + 1)).take (k - (p + 1)), (c != chClose) = true := by
    intro c hc
    obtain ⟨j, hj⟩ := List.mem_iff_getElem?.mp hc
    rw [List.getElem?_take, List.getElem?_drop] at hj
    split at hj
    next hlt =>
      refine bne_iff_ne.mpr ?_
      rintro rfl
      exact hmin (p + 1 + j) (by omega) (by omega) hj
    next => cases hj
  have hend : ∀ c r, chClose :: text.drop (k + 1) = c :: r → (c != chClose) = false := fun c r e =>
    (List.cons.inj e).1 ▸ bne_self_eq_false chClose
  rw [hsplit, afterClose, dropWhile_run hin hend]
  rfl

theorem digitRun_drop_eq_nil : digitRun (text.drop p) = [] ↔ ¬ ∃ c, text[p]? = some c ∧ isDigit c = true := by
  simp [digitRun_eq_nil, drop_eq_cons_iff]

end Brackets

/-! ### MismatchedBrackets and MissingBlockCount (R126, R127) -/

/-- A kind that neither an operand nor a chain raises, nor a wrong character, is a block's own. -/
theorem decode_eq_bad_block {text : Text} {p : Nat} {e : ErrorKind}
    (he : e = .mismatchedBrackets ∨ e = .missingBlockCount) :
    decode text p = .bad e ↔ text[p]? = some chOpen ∧ decodeBlock (text.drop (p + 1)) = .error e := by
  rw [decode_eq_bad_iff_at]
  rcases he with rfl | rfl
  · simp [decodeCmd_eq_error]
  · simp [decodeCmd_eq_error]

theorem decodeBlock_eq_mismatchedBrackets {s : Text} :
    decodeBlock s = .error .mismatchedBrackets ↔ ¬ s.contains chClose = true := by
  have hchain : decodeChain (chainText s) ≠ .error .mismatchedBrackets := fun h =>
    (decodeChain_error_kind h).1 rfl
  simp [decodeBlock_eq_error_cases, hchain]

theorem decodeBlock_eq_missingBlockCount {s : Text} :
    decodeBlock s = .error .missingBlockCount ↔ s.contains chClose = true ∧ digitRun (afterClose s) = [] := by
  have hchain : decodeChain (chainText s) ≠ .error .missingBlockCount := fun h =>
    (decodeChain_error_kind h).2.1 rfl
  simp [decodeBlock_eq_error_cases, hchain]

/-- Settles O11: no chain raises it, so the text after the `[` holds no `]`; a `]` starts no command. -/
theorem mismatchedBracketsExactly : Obligations.MismatchedBracketsExactly := by
  refine ⟨fun text p => ?_, fun text p hp => ?_⟩
  · rw [decode_eq_bad_block (.inl rfl), decodeBlock_eq_mismatchedBrackets, contains_close_iff]
    simp only [not_exists, not_and, ne_eq]
  · exact decode_eq_bad_iff_at.mpr ⟨chClose, hp, decodeCmd_of_not_isCmdStart rfl⟩

/-- Settles O12: no chain raises it, and the count is read after the first `]`. -/
theorem missingBlockCountExactly : Obligations.MissingBlockCountExactly := by
  intro text p
  rw [decode_eq_bad_block (.inr rfl), decodeBlock_eq_missingBlockCount]
  refine and_congr_right fun _ => ⟨fun ⟨hclose, hcount⟩ => ?_, fun ⟨k, hpk, hk, hmin, hcount⟩ => ?_⟩
  · obtain ⟨k, hfirst⟩ := contains_close_iff_firstClose.mp hclose
    rw [hfirst.afterClose_eq, digitRun_drop_eq_nil] at hcount
    obtain ⟨hpk, hk, hmin⟩ := hfirst
    exact ⟨k, hpk, hk, hmin, hcount⟩
  · have hfirst : FirstClose text p k := ⟨hpk, hk, hmin⟩
    rw [hfirst.afterClose_eq, digitRun_drop_eq_nil]
    exact ⟨contains_close_iff_firstClose.mpr ⟨k, hfirst⟩, hcount⟩

/-! ### No text raises RangeError (R123) -/

theorem decodeBlock_ne_rangeError {s : Text} : decodeBlock s ≠ .error .rangeError := by
  have hchain : decodeChain (chainText s) ≠ .error .rangeError := fun h =>
    (decodeChain_error_kind h).2.2 rfl
  simp [decodeBlock_eq_error_cases, hchain]

theorem decode_ne_rangeError {text : Text} {p : Nat} : decode text p ≠ .bad .rangeError := by
  rw [ne_eq, decode_eq_bad_iff_at]
  simp [decodeCmd_eq_error, decodeBlock_ne_rangeError]

end Sys2Proof

namespace Sys2Proof.Machine

/-! ### Raising an error (R122, R123, R130) -/

theorem errorCode_eq_one {k : ErrorKind} : errorCode k = 1 ↔ k = .rangeError := by
  cases k <;> decide

/-- Where the loop condition does not end the run, a malformed command raises its error (R86, R130). -/
theorem step_bad {s : State} {k : ErrorKind} (hr : inRun s) (hx : ¬(s.tp = 0 ∧ exhausted s = true))
    (hd : decode s.prog s.tp = .bad k) : step s = .next (raiseError k s) := by
  rw [step_run hr, runStep, if_neg hx, hd]

/-- Settles O37: a text with a command position is not empty, so only a used-up window could end the run. -/
theorem stepRaisesTheDecodeError : Obligations.StepRaisesTheDecodeError := by
  intro s k hr hp hd
  refine ⟨step_bad hr ?_ hd, rfl, rfl, rfl, rfl, rfl, rfl, rfl⟩
  rintro ⟨ht, hx⟩
  have hprog : s.prog ≠ [] := by
    intro h
    rw [h, decode_eq_endOfText.mpr (Nat.zero_le _)] at hd
    cases hd
  have hused : s.re ≤ s.pos := by simpa [exhausted, hprog] using hx
  exact absurd (hp ht) (Nat.not_lt.mpr hused)

theorem normaliseRange_eq_error {a e : Int} {len : Nat} {k : ErrorKind} :
    normaliseRange a e len = .error k ↔
      ((a < 0 ∨ (len : Int) < a) ∨ rangeEnd e len < a) ∧ k = .rangeError := by
  rw [normaliseRange]
  split
  next hstart => simp [hstart, eq_comm (a := k)]
  next hstart =>
    split
    next hend => simp [hend, eq_comm (a := k)]
    next hend => simp [hstart, hend]

theorem endPass_err {s : State} (h : s.err = 0) : (endPass s).err = 0 := by
  rcases endPass_cases s with ⟨-, e⟩ | ⟨-, e⟩
  · rw [e]; rfl
  · rw [e]; exact h

/-- A step of a run leaves ERR at 0, or `Decode` has raised the error whose code it writes. -/
theorem runStep_err {s t : State} (h0 : s.err = 0) (h : runStep s = .next t) :
    t.err = 0 ∨ ∃ k, decode s.prog s.tp = .bad k ∧ t.err = errorCode k := by
  rcases runStep_cases s with ⟨-, -, e⟩ | ⟨-, ⟨-, e⟩ | ⟨k, hd, e⟩ | ⟨i, q, -, -, e⟩ | ⟨i, q, -, -, e⟩⟩
  · rw [e] at h; cases h; exact .inl rfl
  · rw [e] at h; cases h; exact .inl (endPass_err h0)
  · rw [e] at h; cases h; exact .inr ⟨k, hd, rfl⟩
  · rw [e] at h; cases h; exact .inl (endPass_err h0)
  · rw [e, runCommand_eq_next] at h
    obtain ⟨-, rfl⟩ := h
    exact .inl (by simpa [afterExec] using h0)

/-- Settles O42: GO with a bad range raises RangeError, and what a step of a run raises is `Decode`'s. -/
theorem rangeErrorExactly : Obligations.RangeErrorExactly := by
  refine ⟨fun a e len => ?_, fun a e len k h => (normaliseRange_eq_error.mp h).2,
    fun s rest hin hb hn => ?_, fun s t hr h0 h => ?_⟩
  · exact normaliseRange_eq_error.trans (and_iff_left rfl)
  · exact ⟨_, step_go_error hin hb hn, rfl, rfl, rfl, rfl, rfl, rfl, rfl, rfl, rfl, rfl, rfl, rfl⟩
  · rw [step_run hr] at h
    rcases runStep_err h0 h with herr | ⟨k, hd, herr⟩
    · rw [herr]; decide
    · rw [herr, ne_eq, errorCode_eq_one]
      rintro rfl
      exact decode_ne_rangeError hd

/-! ### The trace of a step (R136) -/

theorem traceWith_of_gate {i : Instr} {s : State} (h : s.verbose = true ∨ (s.verboseOnce = true ∧ s.pass = 0)) :
    traceWith i s = s.trace ++ [⟨s.pass, i⟩] := if_pos (by simpa [traceGate] using h)

theorem traceWith_of_no_gate {i : Instr} {s : State} (hv : s.verbose = false)
    (ho : s.verboseOnce = false ∨ s.pass ≠ 0) : traceWith i s = s.trace :=
  if_neg (by simpa [traceGate, hv, imp_iff_not_or] using ho)

theorem endPass_trace (s : State) : (endPass s).trace = s.trace := by
  rcases endPass_cases s with ⟨-, e⟩ | ⟨-, e⟩
  · rw [e]; rfl
  · rw [e]

theorem runCommand_trace {i : Instr} {q : Nat} {s t : State} (h : runCommand i q s = .next t) :
    t.trace = traceWith i s := by
  obtain ⟨-, rfl⟩ := runCommand_eq_next.mp h
  rw [emitTrace_eq]
  rfl

/-- A step of a run that executes no command leaves the trace as it is. -/
theorem runStep_trace_of_no_command {s t : State} (h : runStep s = .next t)
    (hno : s.re ≤ s.pos ∨ ∀ i q, decode s.prog s.tp ≠ .command i q) : t.trace = s.trace := by
  rcases runStep_cases s with ⟨-, -, e⟩ | ⟨-, ⟨-, e⟩ | ⟨k, -, e⟩ | ⟨i, q, -, -, e⟩ | ⟨i, q, hd, hp, e⟩⟩
  · rw [e] at h; cases h; rfl
  · rw [e] at h; cases h; exact endPass_trace s
  · rw [e] at h; cases h; rfl
  · rw [e] at h; cases h; exact endPass_trace s
  · exact hno.elim (fun hge => absurd hp (Nat.not_lt.mpr hge)) (fun hne => absurd hd (hne i q))

/-- Settles O46: the step of a command appends what the gate lets through, and no other step writes the
trace. -/
theorem traceRecordsExecutedCommands : Obligations.TraceRecordsExecutedCommands := by
  intro s t hr h
  rw [step_run hr] at h
  refine ⟨fun i q hp hd => ?_, runStep_trace_of_no_command h⟩
  rw [runStep_command hp hd] at h
  rw [runCommand_trace h]
  exact ⟨traceWith_of_gate, traceWith_of_no_gate⟩

/-! ### Between runs, and runs that never stop (R121, R130) -/

/-- Settles O49: each step is the idle step. -/
theorem resultsHoldBetweenRuns : Obligations.ResultsHoldBetweenRuns :=
  fun k _ hin hb => runSteps_idle hin hb k

/-- With the invariant and no host action pending a step answers a next state: the only stop of a run is a
read outside the window (log 9). -/
theorem step_next_of_unitInv {s : State} (hs : UnitInv s) (hin : s.hostIn = []) : ∃ t, step s = .next t := by
  by_cases hb : s.status = .busy
  · have hr : inRun s := ⟨hb, hin⟩
    rcases runStep_cases s with ⟨-, -, e⟩ | ⟨-, ⟨-, e⟩ | ⟨k, -, e⟩ | ⟨i, q, -, -, e⟩ | ⟨i, q, hd, hp, -⟩⟩
    · exact ⟨_, (step_run hr).trans e⟩
    · exact ⟨_, (step_run hr).trans e⟩
    · exact ⟨_, (step_run hr).trans e⟩
    · exact ⟨_, (step_run hr).trans e⟩
    · exact ⟨_, step_command hs hr hp hd⟩
  · exact ⟨s, step_idle hin hb⟩

theorem runSteps_next_of_unitInv {s : State} (hs : UnitInv s) (hin : s.hostIn = []) (k : Nat) :
    ∃ t, runSteps k s = .next t ∧ UnitInv t := by
  induction k generalizing s with
  | zero => exact ⟨s, rfl, hs⟩
  | succ k ih =>
    obtain ⟨u, hu⟩ := step_next_of_unitInv hs hin
    have hin' : u.hostIn = s.hostIn := congrArg Prod.fst (runConstants_step hin hu)
    obtain ⟨t, ht, hinv⟩ := ih (everyStepKeepsTheInvariant _ _ hs hu) (hin'.trans hin)
    exact ⟨t, by rw [runSteps_succ, hu, andThen_next, ht], hinv⟩

/-- Settles O52: the invariant goes with the run, and a state that has it takes its step. -/
theorem runsNeverStop : Obligations.RunsNeverStop :=
  fun k _ hs hr => runSteps_next_of_unitInv hs hr.2 k

end Sys2Proof.Machine

/-! PROOFS. Hardware reset (70_reset_and_hazards.md R140; 10_state.md R30): it is served in every state, BUSY
or not, and what R30 says of the state after it is the invariant of an IDLE unit. -/

namespace Sys2Proof.Machine

/-- The step that serves a hardware reset (R140). -/
theorem step_reset {s : State} {rest : List HostReq} (hin : s.hostIn = .reset :: rest) :
    step s = .next (hardReset { s with hostIn := rest }) :=
  step_host hin

theorem hardReset_status (s : State) : (hardReset s).status = .idle := rfl

/-- Reset leaves the actions the host still has pending. -/
theorem hardReset_hostIn (s : State) : (hardReset s).hostIn = s.hostIn := rfl

/-- Settles O48: both states are IDLE, and of an IDLE unit the invariant says that there is no error and no
output. -/
theorem resetValuesFromEveryState : Obligations.ResetValuesFromEveryState := by
  unfold Obligations.ResetValuesFromEveryState
  refine ⟨⟨rfl, resetHasTheInvariant.idleResult rfl⟩, fun s rest hin => ?_⟩
  obtain ⟨herr, houtb, hbytes⟩ := (unitInv_hardReset { s with hostIn := rest }).idleResult (hardReset_status _)
  exact ⟨_, step_reset hin, hardReset_status _, herr, houtb, hbytes, hardReset_hostIn _⟩

end Sys2Proof.Machine
